-- ==== Sys2Proof/Word.lean ====
section
/-! DEFINITION. The words of crc_core: the widths of its ports that do not depend on the variant
(10_state.md R23, 30_encoding.md R80). Registers, table entries and checksums are `BitVec` of the variant's own
width and stand in Config and State. Bit 0 is the least significant bit everywhere (00_scope.md R9). -/

namespace Sys2Proof

/-- A stream byte, a table index, or cmd_data: 8 bits, unsigned (R82, R60). -/
abbrev Byte := BitVec 8

/-- The command opcode cmd_op: 2 bits (R81). -/
abbrev Op := BitVec 2

/-- A command word `{cmd_op[1:0], cmd_data[7:0]}`: 10 bits (R80). -/
abbrev CmdWord := BitVec 10

/-- The status word status_o: 6 bits (R41). -/
abbrev StatusWord := BitVec 6

end Sys2Proof
end

