-- ==== Sys2Proof/Config.lean ====
section
/-! DEFINITION. The implementation parameters of crc_core: the generics VARIANT and POLY (00_scope.md R6,
10_state.md R20 to R22), and the closed choices a variant makes (R3). The functions that say which choice a variant
makes stand in Machine/Variant.lean. The block has no free value: after the first reset edge "there is no draw
anywhere" (41_commands.md R133). -/

namespace Sys2Proof

/-- VARIANT: exactly four (R2, R3). A width outside the set cannot be written (R6, R22). -/
inductive Variant where
  | crc4
  | crc8
  | crc16
  | crc32
deriving DecidableEq, Repr

/-- W, the result width in bits (R3). -/
def Variant.w : Variant → Nat
  | .crc4 => 4
  | .crc8 => 8
  | .crc16 => 16
  | .crc32 => 32

/-- SW, the storage width in bits: the width of REG, RESULT and every TABLE entry (R3). -/
def Variant.sw : Variant → Nat
  | .crc4 => 8
  | .crc8 => 8
  | .crc16 => 16
  | .crc32 => 32

/-- The two generics of one elaborated block. POLY is any W-bit value, 0 and even values included (R21), so a
polynomial that does not fit in W bits cannot be written (R22). -/
structure Config where
  variant : Variant
  poly : BitVec variant.w
deriving DecidableEq, Repr

/-- W of a configuration. -/
abbrev Config.w (c : Config) : Nat := c.variant.w

/-- SW of a configuration. -/
abbrev Config.sw (c : Config) : Nat := c.variant.sw

/-- The two table algorithms (40_table_gen.md R101). -/
inductive TableAlgorithm where
  | msbFirst
  | reflected
deriving DecidableEq, Repr

/-- The three update forms (41_commands.md R126 to R128). -/
inductive UpdateForm where
  | oneByte
  | twoByte
  | fourByteReflected
deriving DecidableEq, Repr

/-- The source's configuration record `{width, polynomial, reflected, final_xor}` (R6). -/
structure ConfigRecord where
  width : Nat
  polynomial : Nat
  reflected : Bool
  finalXor : Bool
deriving DecidableEq, Repr

/-- What a designer asks elaboration for: a result width, which names the variant, and a polynomial (R22). -/
structure RawConfig where
  width : Nat
  poly : Nat
deriving DecidableEq, Repr

/-- Why elaboration refuses (R22). A refused configuration has no hardware and no model. -/
inductive ElabError where
  /-- VARIANT outside {CRC4, CRC8, CRC16, CRC32}. -/
  | unsupportedVariant
  /-- POLY ≥ 2^W. -/
  | polyTooWide
deriving DecidableEq, Repr

end Sys2Proof
end

