-- ==== Sys2Proof/Syntax.lean ====
section
/-! DEFINITION. The commands of crc_core, one constructor for each row of opcode_table.json (30_encoding.md R81). -/

namespace Sys2Proof

/-- A command. NOP, INIT and FINAL have no operands: their data bits are ignored, not reserved (R82, R86). The
variant is no part of a command (R83). -/
inductive Instr where
  /-- NOP, op 00: no effect (R122). -/
  | nop
  /-- INIT, op 01: start a frame (R124). -/
  | init
  /-- BYTE b, op 10: fold the byte b into the register (R125). -/
  | byte (b : Byte)
  /-- FINAL, op 11: end the frame and publish the checksum (R129). -/
  | final
deriving DecidableEq, Repr

end Sys2Proof
end

