-- ==== Sys2Proof/WellFormed.lean ====
section
/-! DEFINITION. What can be ill-formed on this hardware. A command cannot: every op is defined and every data byte is
legal (30_encoding.md R85, R86), so `Instr.wellFormed` holds of every command. A requested configuration can
(10_state.md R22): each of its two checks is a Bool of its own. The checks on assembler statements, whose immediates
and characters can be out of range (R88, R89), stand with the assembler in Machine/Asm.lean. -/

namespace Sys2Proof

/-- No command is illegal: errors come from the order of commands, never from their bits (R86). -/
def Instr.wellFormed : Instr → Bool
  | .nop => true
  | .init => true
  | .byte _ => true
  | .final => true

/-- The requested result width is one of the four (R2, R22). -/
def RawConfig.widthSupported (r : RawConfig) : Bool :=
  r.width == 4 || r.width == 8 || r.width == 16 || r.width == 32

/-- The requested polynomial fits in W bits (R22). -/
def RawConfig.polyFits (r : RawConfig) : Bool :=
  decide (r.poly < 2 ^ r.width)

/-- Both checks of elaboration (R22). -/
def RawConfig.wellFormed (r : RawConfig) : Bool :=
  r.widthSupported && r.polyFits

end Sys2Proof
end

