-- ==== Sys2Proof/Decode.lean ====
section
/-! DEFINITION. The command encoding (30_encoding.md R80 to R88): the fields of a command word, the total decoder,
the encoder, the opcode table as match and mask, and the decoder of a number as the host numbers a table row. -/

namespace Sys2Proof

/-- Word bits [9:8], the op field (R80). -/
def CmdWord.op (w : CmdWord) : Op := w.extractLsb' 8 2

/-- Word bits [7:0], the data field (R80). -/
def CmdWord.data (w : CmdWord) : Byte := w.extractLsb' 0 8

/-- `cmd = {cmd_op[1:0], cmd_data[7:0]}` (R80). -/
def cmdWord (op : Op) (data : Byte) : CmdWord := op ++ data

/-- The decoder. It reads bits [9:8] only, and is total: no word is illegal (R85). The data of NOP, INIT and FINAL is
ignored (R82). -/
def decode (w : CmdWord) : Instr :=
  if CmdWord.op w = 0b00#2 then .nop
  else if CmdWord.op w = 0b01#2 then .init
  else if CmdWord.op w = 0b10#2 then .byte (CmdWord.data w)
  else .final

/-- The encoder: NOP, INIT and FINAL are encoded with data 0x00, and `BYTE b` as `0x200 | b` (R88). -/
def encode : Instr → CmdWord
  | .nop => 0x000#10
  | .init => 0x100#10
  | .byte b => 0x200#10 ||| b.setWidth 10
  | .final => 0x300#10

/-- The mnemonic of a command, as opcode_table.json spells it (R81). -/
def Instr.mnemonic : Instr → String
  | .nop => "NOP"
  | .init => "INIT"
  | .byte _ => "BYTE"
  | .final => "FINAL"

/-- One row of the opcode map (R85). -/
structure OpcodeRow where
  mnemonic : String
  pattern : CmdWord
  mask : CmdWord
deriving DecidableEq, Repr

/-- The opcode map (R85). -/
def opcodeRows : List OpcodeRow :=
  [⟨"NOP", 0x000, 0x300⟩, ⟨"INIT", 0x100, 0x300⟩, ⟨"BYTE", 0x200, 0x300⟩, ⟨"FINAL", 0x300, 0x300⟩]

/-- A word matches a row when its masked bits are the row's pattern (R85). -/
def OpcodeRow.matches (r : OpcodeRow) (w : CmdWord) : Bool := w &&& r.mask == r.pattern

/-- Why a number is no command word. -/
inductive DecodeError where
  /-- The number needs more than the ten bits of a command word: listings go from 0x000 to 0x3FF, and "there is no
  other format, length, prefix or mode bit" (R80). Log 8. -/
  | widerThanACommandWord
deriving DecidableEq, Repr

/-- Read a number as a command word; the word is decoded, a wider number is rejected by name (log 8). -/
def decodeNumber (n : Nat) : Except DecodeError Instr :=
  if n < 1024 then .ok (decode (BitVec.ofNat 10 n)) else .error .widerThanACommandWord

/-- The number that `nbits` bits of `w` make, with every bit above them 0. -/
def tableNumber (nbits w : Nat) : Nat := w % 2 ^ nbits

/-- What the decoder reads from the bits `w` of an opcode-table row. A command is one word of ten bits (R87), so a
row's bits are the whole word. -/
def decodeTableWord (nbits w : Nat) : Option Instr :=
  match decodeNumber (tableNumber nbits w) with
  | .ok i => some i
  | .error _ => none

end Sys2Proof
end

