-- ==== Sys2Proof/Machine/Variant.lean ====
section
/-! DEFINITION. What a variant fixes (00_scope.md R3), the four named engines (10_state.md R20), the source's
configuration record (R6) and elaboration of the generics (R22). -/

namespace Sys2Proof

/-- The table algorithm: MSB-first for CRC4, CRC8, CRC16, reflected for CRC32 (R3, R101). -/
def Variant.tableAlgorithm : Variant → TableAlgorithm
  | .crc4 => .msbFirst
  | .crc8 => .msbFirst
  | .crc16 => .msbFirst
  | .crc32 => .reflected

/-- The update form (R3, R126 to R128). -/
def Variant.updateForm : Variant → UpdateForm
  | .crc4 => .oneByte
  | .crc8 => .oneByte
  | .crc16 => .twoByte
  | .crc32 => .fourByteReflected

/-- Only CRC32 applies the final inversion (R3, R130). -/
def Variant.finalInversion : Variant → Bool
  | .crc4 => false
  | .crc8 => false
  | .crc16 => false
  | .crc32 => true

/-- SEED = ones_SW, all-ones at the storage width: 0xFF, 0xFF, 0xFFFF, 0xFFFFFFFF (R3, R12; for CRC4
90_conflicts.md C1). -/
def Config.seed (c : Config) : BitVec c.sw := BitVec.allOnes c.sw

/-- POLY_SW = zext_SW(POLY) (R12, R21). -/
def Config.polySW (c : Config) : BitVec c.sw := c.poly.setWidth c.sw

/-- crc_engine_4b (R20). -/
def crcEngine4b : Config := ⟨.crc4, 0x3#4⟩

/-- crc_engine_8b (R20). -/
def crcEngine8b : Config := ⟨.crc8, 0x31#8⟩

/-- crc_engine_16b (R20). -/
def crcEngine16b : Config := ⟨.crc16, 0x1021#16⟩

/-- crc_engine_32b (R20); POLY in reflected form (R21, 90_conflicts.md C4). -/
def crcEngine32b : Config := ⟨.crc32, 0xEDB88320#32⟩

/-- The source's configuration record: `reflected` and `final_xor` are true exactly for CRC32 (R6). -/
def Config.record (c : Config) : ConfigRecord where
  width := c.w
  polynomial := c.poly.toNat
  reflected := c.variant.tableAlgorithm == .reflected
  finalXor := c.variant.finalInversion

/-- The variant of a result width, if there is one (R2, log 15). -/
def Variant.ofWidth (width : Nat) : Option Variant :=
  if width = 4 then some .crc4
  else if width = 8 then some .crc8
  else if width = 16 then some .crc16
  else if width = 32 then some .crc32
  else none

/-- Elaboration: it refuses a VARIANT outside the set and a POLY that does not fit in W bits, and nothing else
(R22, R21). -/
def RawConfig.elaborate (r : RawConfig) : Except ElabError Config :=
  match Variant.ofWidth r.width with
  | none => .error .unsupportedVariant
  | some v => if r.poly < 2 ^ v.w then .ok ⟨v, BitVec.ofNat v.w r.poly⟩ else .error .polyTooWide

end Sys2Proof
end

