-- ==== Sys2Proof/Machine/TableGen.lean ====
section
/-! DEFINITION. `crc_table_gen`, the combinational table generator (40_table_gen.md R100 to R104): a pure function of
the generics and an index, with no state. The two algorithms are written at any width; `Config.tg` uses each only at
the widths R101 pairs it with. -/

namespace Sys2Proof

/-- One iteration of the MSB-first algorithm: the top bit is tested before the shift (R102). -/
def msbIteration {n : Nat} (poly r : BitVec n) : BitVec n :=
  if r.msb then (r <<< 1) ^^^ poly else r <<< 1

/-- One iteration of the reflected algorithm: the low bit is tested before the logical shift (R103). -/
def reflIteration {n : Nat} (poly r : BitVec n) : BitVec n :=
  if r.getLsbD 0 then (r >>> 1) ^^^ poly else r >>> 1

/-- `k` times the same iteration. -/
def iterateBits {n : Nat} (f : BitVec n → BitVec n) : Nat → BitVec n → BitVec n
  | 0, r => r
  | k + 1, r => iterateBits f k (f r)

/-- TG_msb: x in the most significant byte position, then 8 iterations (R102). -/
def tgMsb {n : Nat} (poly : BitVec n) (x : Byte) : BitVec n :=
  iterateBits (msbIteration poly) 8 (x.setWidth n <<< (n - 8))

/-- TG_refl: x as it stands, then 8 iterations (R103). -/
def tgRefl {n : Nat} (poly : BitVec n) (x : Byte) : BitVec n :=
  iterateBits (reflIteration poly) 8 (x.setWidth n)

/-- TG, the entry that `crc_table_gen` computes for an index (R101). -/
def Config.tg (c : Config) (x : Byte) : BitVec c.sw :=
  match c.variant.tableAlgorithm with
  | .msbFirst => tgMsb c.polySW x
  | .reflected => tgRefl c.polySW x

end Sys2Proof
end

