-- ==== Sys2Proof/Machine/State.lean ====
section
/-! DEFINITION. The state of one `crc_core` instance (10_state.md R24 to R33), the reasons a step could stop, and the
state after reset (R45). -/

namespace Sys2Proof.Machine

/-- What the host drives on the input pins during one clock cycle; the rising edge that ends the cycle samples them
(R23). clk itself is the step. -/
structure Pins where
  rst : Bool
  cmdValid : Bool
  cmdOp : Op
  cmdData : Byte
  tblAddr : Byte
deriving DecidableEq, Repr

/-- A cycle in which the host asserts nothing. -/
def Pins.idle : Pins := ⟨false, false, 0, 0, 0⟩

/-- Memory of entries of `n` bits, as (index, entry) cells: indices strictly rising, no entry equal to what an
unlisted index reads as (`Memory.wf` in Ops). The smallest unit the block addresses is a whole entry (20_memory.md
R60; log 9). -/
abbrev Memory (n : Nat) := List (Nat × BitVec n)

/-- The state of one block. -/
structure State where
  /-- The generics VARIANT and POLY: configuration, which no step writes (R33; log 1). -/
  cfg : Config
  /-- REG, the working CRC register (R24). -/
  reg : BitVec cfg.sw
  /-- TABLE, 256 entries (R25). -/
  table : Memory cfg.sw
  /-- RESULT, the finalized checksum of the last completed frame (R26). -/
  result : BitVec cfg.sw
  /-- RESULT_VALID (R27). -/
  resultValid : Bool
  /-- IN_FRAME: a frame is open (R28). -/
  inFrame : Bool
  /-- ERR, the sticky protocol-error flag (R29). -/
  err : Bool
  /-- ERR_CAUSE, the cause of the first protocol error since reset (R30). -/
  errCause : BitVec 2
  /-- READY: TABLE is complete (R31). -/
  ready : Bool
  /-- FILL_IDX, the index of the next TABLE entry the fill writes (R32). -/
  fillIdx : Byte
  /-- The model's own field: what the host drives, one entry per clock cycle, the current cycle first; after the
  list ends the host drives nothing (R8; log 5). -/
  host : List Pins
deriving DecidableEq, Repr

/-- The protocol errors (60_exceptions.md R152). They stop nothing. -/
inductive ProtocolError where
  | byteOutsideFrame
  | finalOutsideFrame
deriving DecidableEq, Repr

/-- Why a step could stop with a fault: no reason exists. The block has no exception, no illegal encoding and no
stuck state (R86, R150, R155); nothing raises a fault, so this type is empty (log 11). -/
inductive Fault where
deriving DecidableEq, Repr

/-- Why a step could be refused. -/
inductive Refusal where
  /-- A command without a meaning. Nothing raises it: all four commands have theirs (safe; log 11). -/
  | notModelled (mnemonic : String)
deriving DecidableEq, Repr

/-- The state after a reset edge of a block with generics `c`, when its TABLE reads 0 before the fill and the host
asserts nothing (R45; TABLE log 3, host log 5). -/
def State.resetOf (c : Config) : State where
  cfg := c
  reg := c.seed
  table := []
  result := 0
  resultValid := false
  inFrame := false
  err := false
  errCause := 0b00
  ready := false
  fillIdx := 0
  host := []

/-- The machine right after reset: crc_engine_32b (R20, R45; the choice of engine is log 2). -/
def State.reset : State := State.resetOf crcEngine32b

end Sys2Proof.Machine
end

