-- ==== Sys2Proof/Machine/Flags.lean ====
section
/-! DEFINITION. The flags of the block (R27 to R31): the cause codes, what a frame's start and end do to the flags,
and the status word (10_state.md R41). The block has no arithmetic flags. -/

namespace Sys2Proof.Machine

/-- The ERR_CAUSE code of a protocol error (R30, R152). -/
def ProtocolError.code : ProtocolError → BitVec 2
  | .byteOutsideFrame => 0b01
  | .finalOutsideFrame => 0b10

/-- The flags an accepted INIT writes: IN_FRAME = 1, RESULT_VALID = 0 (R124). -/
def State.openFrame (s : State) : State := { s with inFrame := true, resultValid := false }

/-- The flags a FINAL in a frame writes: RESULT_VALID = 1, IN_FRAME = 0 (R129). -/
def State.closeFrame (s : State) : State := { s with inFrame := false, resultValid := true }

/-- One flag as one bit. -/
def flagBit (b : Bool) : BitVec 1 := BitVec.ofBool b

/-- `status_o = {ERR_CAUSE, ERR, RESULT_VALID, IN_FRAME, READY}` (R41). -/
def State.statusO (s : State) : StatusWord :=
  s.errCause ++ flagBit s.err ++ flagBit s.resultValid ++ flagBit s.inFrame ++ flagBit s.ready

/-- What a host reads from a status word. -/
structure StatusView where
  ready : Bool
  inFrame : Bool
  resultValid : Bool
  err : Bool
  cause : Option ProtocolError
deriving DecidableEq, Repr

/-- The cause a code stands for: `none` inside for code 00; code 11 is reserved and refused (R30, log 12). -/
def decodeCause (code : BitVec 2) : Option (Option ProtocolError) :=
  if code = 0b00 then some none
  else if code = 0b01 then some (some .byteOutsideFrame)
  else if code = 0b10 then some (some .finalOutsideFrame)
  else none

/-- A host's reading of status_o by the fields of R41; a word with the reserved cause is refused (log 12). -/
def decodeStatus (w : StatusWord) : Option StatusView :=
  match decodeCause (w.extractLsb' 4 2) with
  | none => none
  | some cause => some ⟨w.getLsbD 0, w.getLsbD 1, w.getLsbD 2, w.getLsbD 3, cause⟩

end Sys2Proof.Machine
end

