-- ==== Sys2Proof/Machine/Ops.lean ====
section
/-! DEFINITION. The named operations over TABLE, the registers and the input pins, recording a protocol error, and
which of the four cases an edge is. -/

namespace Sys2Proof.Machine

/-! ### TABLE as memory (20_memory.md R60, R61, R67) -/

/-- What an unlisted index reads as: 0 (log 3). -/
def Memory.unlisted {n : Nat} : BitVec n := 0

/-- The entry at a numeric index. -/
def Memory.readAt {n : Nat} : Memory n → Nat → BitVec n
  | [], _ => Memory.unlisted
  | (j, v) :: rest, k => if j = k then v else Memory.readAt rest k

/-- Put a cell in front, unless it holds what an unlisted index reads as. -/
def Memory.consCell {n : Nat} (k : Nat) (v : BitVec n) (rest : Memory n) : Memory n :=
  if v = Memory.unlisted then rest else (k, v) :: rest

/-- Write the entry at a numeric index, keeping the canonical form. -/
def Memory.writeAt {n : Nat} : Memory n → Nat → BitVec n → Memory n
  | [], k, v => Memory.consCell k v []
  | (j, u) :: rest, k, v =>
    if k < j then Memory.consCell k v ((j, u) :: rest)
    else if k = j then Memory.consCell k v rest
    else (j, u) :: Memory.writeAt rest k v

/-- One whole entry, at an 8-bit index (R60, R67). No index is out of range (R66). -/
def Memory.read {n : Nat} (m : Memory n) (i : Byte) : BitVec n := Memory.readAt m i.toNat

/-- Write one whole entry, at an 8-bit index (R67). -/
def Memory.write {n : Nat} (m : Memory n) (i : Byte) (v : BitVec n) : Memory n := Memory.writeAt m i.toNat v

/-- The canonical form from index `lo` on. -/
def Memory.wfFrom {n : Nat} : Nat → Memory n → Bool
  | _, [] => true
  | lo, (j, v) :: rest =>
    decide (lo ≤ j) && decide (j < 256) && !(decide (v = Memory.unlisted)) && Memory.wfFrom (j + 1) rest

/-- The canonical form: indices strictly rising and below 256, no entry equal to what an unlisted index reads as. -/
def Memory.wf {n : Nat} (m : Memory n) : Bool := Memory.wfFrom 0 m

/-! ### Registers -/

/-- `REG <- v`. -/
def State.setReg (s : State) (v : BitVec s.cfg.sw) : State := { s with reg := v }

/-- `RESULT <- v`. -/
def State.setResult (s : State) (v : BitVec s.cfg.sw) : State := { s with result := v }

/-- `raise ProtocolError(cause)`: the first cause since reset is kept, and nothing else is written (60_exceptions.md
R151). It is no trap: it saves nothing, redirects nothing and has no return (R155, R156). -/
def State.raiseProtocolError (s : State) (e : ProtocolError) : State :=
  { s with err := true, errCause := if s.err then s.errCause else e.code }

/-! ### The input pins -/

/-- The pins of the current cycle (log 5). -/
def State.pins (s : State) : Pins := s.host.headD Pins.idle

/-- The host's inputs go on to the next cycle; no state element of the block changes. -/
def State.nextCycle (s : State) : State := { s with host := s.host.tail }

/-- What an edge answers, with the host's inputs gone on to the next cycle. -/
def thenNextCycle : Host.Outcome State Fault Refusal → Host.Outcome State Fault Refusal
  | .next t => .next t.nextCycle
  | .fault r => .fault r
  | .refused r => .refused r

/-- The command word on the pins (30_encoding.md R80). -/
def Pins.word (p : Pins) : CmdWord := cmdWord p.cmdOp p.cmdData

/-- A cycle in which the host presents the command word `w` and does not reset. -/
def Pins.present (w : CmdWord) (tblAddr : Byte) : Pins :=
  ⟨false, true, CmdWord.op w, CmdWord.data w, tblAddr⟩

/-! ### Which case an edge is -/

/-- The four cases of a rising edge (70_reset_and_hazards.md R170). -/
inductive EdgeCase where
  | reset
  | fill
  | execute (w : CmdWord)
  | idle
deriving DecidableEq, Repr

/-- The case of an edge with these pins, tested in R170's order. -/
def State.edgeCase (s : State) (p : Pins) : EdgeCase :=
  if p.rst then .reset
  else if !s.ready then .fill
  else if p.cmdValid then .execute p.word
  else .idle

end Sys2Proof.Machine
end

