-- ==== Sys2Proof/Machine/Operands.lean ====
section
/-! DEFINITION. The one operand, the byte b of BYTE, where it meets the register: the table index each update form
computes, UPD and FIN (41_commands.md R126 to R128, R130; 30_encoding.md R82). -/

namespace Sys2Proof.Machine

/-- The index a BYTE looks up. One-byte form: REG XOR b (R126). Two-byte form: REG[15:8] XOR b (R127). Four-byte
reflected form: (REG XOR zext_32(b)) AND 0xFF (R128). -/
def tableIndex {n : Nat} (form : UpdateForm) (r : BitVec n) (b : Byte) : Byte :=
  match form with
  | .oneByte => r.setWidth 8 ^^^ b
  | .twoByte => (r >>> 8).setWidth 8 ^^^ b
  | .fourByteReflected => (r ^^^ b.setWidth n).setWidth 8

/-- The new register, from the old one and the table entry looked up (R126 to R128). -/
def combineEntry {n : Nat} (form : UpdateForm) (r entry : BitVec n) : BitVec n :=
  match form with
  | .oneByte => entry
  | .twoByte => (r <<< 8) ^^^ entry
  | .fourByteReflected => entry ^^^ (r >>> 8)

/-- UPD(REG, b), with the table given as a lookup function (R125 to R128). -/
def upd (c : Config) (lookup : Byte → BitVec c.sw) (r : BitVec c.sw) (b : Byte) : BitVec c.sw :=
  combineEntry c.variant.updateForm r (lookup (tableIndex c.variant.updateForm r b))

/-- FIN(REG): the one's complement for CRC32, REG itself otherwise (R130). -/
def fin (c : Config) (r : BitVec c.sw) : BitVec c.sw :=
  if c.variant.finalInversion then ~~~r else r

/-- CRC_V(s) = FIN(UPD(... UPD(SEED, s_0) ..., s_(n-1))), with the table entries that TG gives (R123). -/
def streamCrc (c : Config) (bytes : List Byte) : BitVec c.sw :=
  fin c (bytes.foldl (upd c c.tg) c.seed)

end Sys2Proof.Machine
end

