-- ==== Sys2Proof/Machine/Commands.lean ====
section
/-! DEFINITION. The meaning of each of the four commands, as an accepted command runs it (41_commands.md R122 to
R129). READY and rst gate acceptance in `step`, not here (R84; log 10). -/

namespace Sys2Proof.Machine

/-- NOP: nothing (R122). -/
def execNop (s : State) : Host.Outcome State Fault Refusal :=
  .next s

/-- INIT: REG <- SEED, IN_FRAME <- 1, RESULT_VALID <- 0, in a frame or not (R124). -/
def execInit (s : State) : Host.Outcome State Fault Refusal :=
  .next (s.setReg s.cfg.seed).openFrame

/-- BYTE b: in a frame REG <- UPD(REG, b), outside one a protocol error (R125). -/
def execByte (b : Byte) (s : State) : Host.Outcome State Fault Refusal :=
  if s.inFrame then .next (s.setReg (upd s.cfg s.table.read s.reg b))
  else .next (s.raiseProtocolError .byteOutsideFrame)

/-- FINAL: in a frame RESULT <- FIN(REG), RESULT_VALID <- 1, IN_FRAME <- 0, outside one a protocol error (R129). -/
def execFinal (s : State) : Host.Outcome State Fault Refusal :=
  if s.inFrame then .next (s.setResult (fin s.cfg s.reg)).closeFrame
  else .next (s.raiseProtocolError .finalOutsideFrame)

end Sys2Proof.Machine
end

