-- ==== Sys2Proof/Machine/Fill.lean ====
section
/-! DEFINITION. The two edges at which no command is accepted: the reset edge (70_reset_and_hazards.md R171) and the
fill edge (40_table_gen.md R110); the table a whole fill leaves, and how a command word is put where the next edge
accepts it. -/

namespace Sys2Proof.Machine

/-- A reset edge: the reset values of R45; TABLE is left unchanged (R171). -/
def State.resetEdge (s : State) : State :=
  { s with
    reg := s.cfg.seed
    result := 0
    resultValid := false
    inFrame := false
    err := false
    errCause := 0b00
    ready := false
    fillIdx := 0 }

/-- A fill edge: TABLE[FILL_IDX] <- TG(FILL_IDX); FILL_IDX <- FILL_IDX + 1 modulo 256; READY <- 1 at index 255
(R110). -/
def State.fillEdge (s : State) : State :=
  { s with
    table := s.table.write s.fillIdx (s.cfg.tg s.fillIdx)
    fillIdx := s.fillIdx + 1
    ready := if s.fillIdx = 255 then true else s.ready }

/-- TABLE as the fill leaves it: entry i holds TG(i), in canonical form (R112). -/
def fullTable (c : Config) : Memory c.sw :=
  (List.range 256).foldr (fun i rest => Memory.consCell i (c.tg (BitVec.ofNat 8 i)) rest) []

/-- The state after the rest of the fill, if it is not complete: READY = 1, TABLE complete, FILL_IDX = 0 (R111,
R112, R32). -/
def State.afterFill (s : State) : State :=
  { s with
    table := if s.ready then s.table else fullTable s.cfg
    fillIdx := if s.ready then s.fillIdx else 0
    ready := true }

/-- The fill done, and the command word of number `n` on this cycle's pins with cmd_valid = 1 and rst = 0, so that the
next edge accepts it (R84). The pins carry ten bits: of a wider number nothing is presented (log 7, log 8). -/
def State.presentNumber (s : State) (n : Nat) : State :=
  { s.afterFill with
    host :=
      (if n < 1024 then Pins.present (BitVec.ofNat 10 n) s.pins.tblAddr
       else { Pins.idle with tblAddr := s.pins.tblAddr }) :: s.host.tail }

end Sys2Proof.Machine
end

