-- ==== Sys2Proof/Machine/Ports.lean ====
section
/-! DEFINITION. The outputs of the block, as functions of the state and of the pins of the cycle (10_state.md R35 to
R41; 41_commands.md R135 to R138). status_o stands in Flags. Reading one changes no state (20_memory.md R69): none
gives back a state. -/

namespace Sys2Proof.Machine

/-- `cmd_ready = READY AND NOT rst` (R35). -/
def State.cmdReady (s : State) (p : Pins) : Bool := s.ready && !p.rst

/-- `crc_o = RESULT[W-1:0]` (R36). -/
def State.crcO (s : State) : BitVec s.cfg.w := s.result.setWidth s.cfg.w

/-- `crc_raw_o = RESULT` (R37). -/
def State.crcRawO (s : State) : BitVec s.cfg.sw := s.result

/-- `crc_valid_o = RESULT_VALID` (R38). -/
def State.crcValidO (s : State) : Bool := s.resultValid

/-- `poly_o = POLY` (R39). -/
def State.polyO (s : State) : BitVec s.cfg.w := s.cfg.poly

/-- `tbl_data_o = (READY = 1) ? TABLE[tbl_addr] : 0` (R40, R135). -/
def State.tblDataO (s : State) (p : Pins) : BitVec s.cfg.sw := if s.ready then s.table.read p.tblAddr else 0

/-- All the outputs of one cycle (R23). -/
structure Outputs (c : Config) where
  cmdReady : Bool
  crcO : BitVec c.w
  crcRawO : BitVec c.sw
  crcValidO : Bool
  polyO : BitVec c.w
  tblDataO : BitVec c.sw
  statusO : StatusWord
deriving DecidableEq, Repr

/-- The outputs of a state under given pins. The pins are an argument of their own, so that a second value the host
drives inside one cycle shows on cmd_ready and tbl_data_o at once (R35, R40, R171; log 6). -/
def State.outputs (s : State) (p : Pins) : Outputs s.cfg where
  cmdReady := s.cmdReady p
  crcO := s.crcO
  crcRawO := s.crcRawO
  crcValidO := s.crcValidO
  polyO := s.polyO
  tblDataO := s.tblDataO p
  statusO := s.statusO

/-- What a run on one stream is observed by (70_reset_and_hazards.md R186). -/
structure Observation (c : Config) where
  crcO : BitVec c.w
  crcRawO : BitVec c.sw
  crcValidO : Bool
  statusO : StatusWord
deriving DecidableEq, Repr

/-- The observation tuple of a cycle (R186). -/
def State.observation (s : State) : Observation s.cfg := ⟨s.crcO, s.crcRawO, s.crcValidO, s.statusO⟩

end Sys2Proof.Machine
end

