-- ==== Sys2Proof/Machine/Step.lean ====
section
/-! DEFINITION. One step: one rising edge of clk (70_reset_and_hazards.md R170). The pins of the current cycle say
which of the four cases the edge is; then the host's inputs go on to the next cycle. -/

namespace Sys2Proof.Machine

/-- One rising edge (R170). -/
def step (s : State) : Host.Outcome State Fault Refusal :=
  match s.edgeCase s.pins with
  | .reset => .next s.resetEdge.nextCycle
  | .fill => .next s.fillEdge.nextCycle
  | .execute w => thenNextCycle (exec (decode w) s)
  | .idle => .next s.nextCycle

/-- The state whose very next step runs the command of an opcode-table row's bits (log 7). -/
def State.withFetchWord (s : State) (nbits w : Nat) : State :=
  s.presentNumber (tableNumber nbits w)

end Sys2Proof.Machine
end

