-- ==== Sys2Proof/Machine/Asm.lean ====
section
/-! DEFINITION. The command-stream assembler (30_encoding.md R88, R89): statements, their well-formedness, the
expansion of the pseudo-instructions, and the reading of source text. Text is a list of characters. What R88 and R89
leave to a reader (blanks, quoting, a comment sign inside quotes) is log 13 and log 14. -/

namespace Sys2Proof.Asm

/-! ### Statements and their expansion -/

/-- One statement: the four mnemonics of R88 and the three pseudo-instructions of R89. An immediate is the number
written, before its range check. -/
inductive Stmt where
  | nop
  | init
  | byte (imm : Nat)
  | final
  | bytes (imms : List Nat)
  | str (text : List Char)
  | crc (text : List Char)
deriving DecidableEq, Repr

/-- Why the assembler refuses a line. -/
inductive Error where
  /-- An immediate outside 0..255 (R88). -/
  | immOutOfRange
  /-- A character of a text outside ASCII 0x20..0x7E (R89). -/
  | badTextCharacter
  /-- A mnemonic that neither R88 nor R89 gives. -/
  | unknownMnemonic
  /-- An operand that is missing, that should not be there, or that is not of the form the mnemonic takes. -/
  | badOperand
deriving DecidableEq, Repr

/-- An immediate is in range: 0..255 (R88). -/
def immInRange (imm : Nat) : Bool := decide (imm < 256)

/-- A character of a text is ASCII 0x20..0x7E (R89). -/
def textCharacter (c : Char) : Bool := decide (0x20 ≤ c.toNat) && decide (c.toNat ≤ 0x7E)

/-- The first thing wrong with a statement, if anything (R88, R89). BYTES takes at least one byte: its form is
`b0, b1, ..., bn` (R89). -/
def Stmt.problem : Stmt → Option Error
  | .nop => none
  | .init => none
  | .byte imm => if immInRange imm then none else some .immOutOfRange
  | .final => none
  | .bytes imms =>
    if imms.isEmpty then some .badOperand else if imms.all immInRange then none else some .immOutOfRange
  | .str text => if text.all textCharacter then none else some .badTextCharacter
  | .crc text => if text.all textCharacter then none else some .badTextCharacter

/-- A statement the assembler accepts. -/
def Stmt.wellFormed (st : Stmt) : Bool := st.problem.isNone

/-- `BYTE c` for a number or a character's code (R88, R89). -/
def byteOf (code : Nat) : Instr := .byte (BitVec.ofNat 8 code)

/-- One `BYTE c` per character of a text, in order, with no terminator (R89). -/
def expandText (text : List Char) : List Instr := text.map fun c => byteOf c.toNat

/-- The commands a well-formed statement stands for (R88, R89). -/
def Stmt.expand : Stmt → List Instr
  | .nop => [.nop]
  | .init => [.init]
  | .byte imm => [byteOf imm]
  | .final => [.final]
  | .bytes imms => imms.map byteOf
  | .str text => expandText text
  | .crc text => .init :: expandText text ++ [.final]

/-- Assemble one statement to commands. -/
def Stmt.assemble (st : Stmt) : Except Error (List Instr) :=
  match st.problem with
  | none => .ok st.expand
  | some e => .error e

/-- Assemble statements in order; the first refusal ends it. -/
def assemble : List Stmt → Except Error (List Instr)
  | [] => .ok []
  | st :: rest =>
    match st.assemble with
    | .error e => .error e
    | .ok is =>
      match assemble rest with
      | .error e => .error e
      | .ok js => .ok (is ++ js)

/-- The word stream of a command stream (R88). -/
def words (is : List Instr) : List CmdWord := is.map encode

/-! ### Characters -/

def isBlank (c : Char) : Bool := c == ' ' || c == '\t' || c == '\r'

/-- The character's code with the lower-case letters mapped to upper case: mnemonics are case-insensitive (R88). -/
def upperCode (c : Char) : Nat := if 97 ≤ c.toNat ∧ c.toNat ≤ 122 then c.toNat - 32 else c.toNat

def decimalDigit (c : Char) : Option Nat :=
  if 48 ≤ c.toNat ∧ c.toNat ≤ 57 then some (c.toNat - 48) else none

def hexDigit (c : Char) : Option Nat :=
  if 65 ≤ upperCode c ∧ upperCode c ≤ 70 then some (upperCode c - 55) else decimalDigit c

/-- A line without the blanks at its ends. -/
def trim (cs : List Char) : List Char :=
  ((cs.dropWhile isBlank).reverse.dropWhile isBlank).reverse

/-! ### Operands -/

/-- Digits after an accumulated value. -/
def digitsFrom (base : Nat) (digit : Char → Option Nat) : Nat → List Char → Option Nat
  | acc, [] => some acc
  | acc, c :: cs =>
    match digit c with
    | none => none
    | some d => digitsFrom base digit (acc * base + d) cs

/-- At least one digit. -/
def number (base : Nat) (digit : Char → Option Nat) : List Char → Option Nat
  | [] => none
  | c :: cs => digitsFrom base digit 0 (c :: cs)

/-- `<imm8>`: a decimal number, a hex number after 0x, or a character literal that means the ASCII code of its
character (R88). -/
def immediate : List Char → Option Nat
  | ['\'', c, '\''] => if c.toNat < 128 then some c.toNat else none
  | '0' :: 'x' :: ds => number 16 hexDigit ds
  | ds => number 10 decimalDigit ds

/-- Cut at the commas that are not inside a character literal (log 14). `acc` is the piece so far, reversed. -/
def splitCommas : List Char → List Char → List (List Char)
  | acc, [] => [acc.reverse]
  | acc, '\'' :: c :: '\'' :: cs => splitCommas ('\'' :: c :: '\'' :: acc) cs
  | acc, ',' :: cs => acc.reverse :: splitCommas [] cs
  | acc, c :: cs => splitCommas (c :: acc) cs

/-- All immediates of a comma list. -/
def immediates : List (List Char) → Option (List Nat)
  | [] => some []
  | piece :: rest =>
    match immediate (trim piece), immediates rest with
    | some n, some ns => some (n :: ns)
    | _, _ => none

/-- A text up to the next double quote, which must end the operand (log 14). `acc` is the text so far, reversed. -/
def textBody : List Char → List Char → Option (List Char)
  | _, [] => none
  | acc, ['"'] => some acc.reverse
  | acc, c :: cs => if c == '"' then none else textBody (c :: acc) cs

/-- A text in double quotes. -/
def quotedText : List Char → Option (List Char)
  | '"' :: cs => textBody [] cs
  | _ => none

/-! ### Lines -/

/-- Drop a comment: `;` to the end of the line (R88), unless the `;` stands inside a text or a character literal
(log 14). The Bool says whether a text is open. -/
def dropComment : Bool → List Char → List Char
  | _, [] => []
  | true, c :: cs => c :: dropComment (c != '"') cs
  | false, '\'' :: c :: '\'' :: cs => '\'' :: c :: '\'' :: dropComment false cs
  | false, c :: cs => if c == ';' then [] else c :: dropComment (c == '"') cs

/-- The mnemonics of R88 and R89, as upper-case codes. -/
inductive Mnemonic where
  | nop | init | byte | final | bytes | str | crc
deriving DecidableEq, Repr

def mnemonicOf (codes : List Nat) : Option Mnemonic :=
  if codes = [78, 79, 80] then some .nop
  else if codes = [73, 78, 73, 84] then some .init
  else if codes = [66, 89, 84, 69] then some .byte
  else if codes = [70, 73, 78, 65, 76] then some .final
  else if codes = [66, 89, 84, 69, 83] then some .bytes
  else if codes = [83, 84, 82] then some .str
  else if codes = [67, 82, 67] then some .crc
  else none

/-- A statement without operands. -/
def bare (operand : List Char) (st : Stmt) : Except Error Stmt :=
  if operand.isEmpty then .ok st else .error .badOperand

/-- A statement whose operand was read, or not. -/
def withOperand {α : Type} (read : Option α) (st : α → Stmt) : Except Error Stmt :=
  match read with
  | some a => .ok (st a)
  | none => .error .badOperand

/-- A mnemonic and its operand. -/
def statement (m : Mnemonic) (operand : List Char) : Except Error Stmt :=
  match m with
  | .nop => bare operand .nop
  | .init => bare operand .init
  | .byte => withOperand (immediate operand) .byte
  | .final => bare operand .final
  | .bytes => withOperand (immediates (splitCommas [] operand)) .bytes
  | .str => withOperand (quotedText operand) .str
  | .crc => withOperand (quotedText operand) .crc

/-- One line: a statement, or nothing where only blanks and a comment stand (R88). -/
def line (cs : List Char) : Except Error (Option Stmt) :=
  let code := trim (dropComment false cs)
  if code.isEmpty then .ok none
  else
    match mnemonicOf ((code.takeWhile fun c => !isBlank c).map upperCode) with
    | none => .error .unknownMnemonic
    | some m =>
      match statement m (trim (code.dropWhile fun c => !isBlank c)) with
      | .error e => .error e
      | .ok st => .ok (some st)

/-- Cut a text into its lines. `acc` is the line so far, reversed. -/
def splitLines : List Char → List Char → List (List Char)
  | acc, [] => [acc.reverse]
  | acc, c :: cs => if c == '\n' then acc.reverse :: splitLines [] cs else splitLines (c :: acc) cs

/-- Read lines in order; the first refusal ends it. -/
def statements : List (List Char) → Except Error (List Stmt)
  | [] => .ok []
  | l :: rest =>
    match line l, statements rest with
    | .error e, _ => .error e
    | .ok _, .error e => .error e
    | .ok none, .ok sts => .ok sts
    | .ok (some st), .ok sts => .ok (st :: sts)

/-- Source text to commands (R88, R89). -/
def assembleText (source : List Char) : Except Error (List Instr) :=
  match statements (splitLines [] source) with
  | .error e => .error e
  | .ok sts => assemble sts

end Sys2Proof.Asm
end

