-- ==== Sys2Proof/Safety.lean ====
section
/-! DEFINITION. The terms that claims about the machine are stated in: a run, an accepted command, the invariant of
10_state.md R42, the cycles of one frame (41_commands.md R123), and two reference forms of the arithmetic, on natural
numbers (R102, R103) and one bit at a time (R107). -/

namespace Sys2Proof.Machine

/-! ### Runs -/

/-- `k` rising edges, from the current cycle on. -/
def run (k : Nat) (s : State) : Host.Outcome State Fault Refusal := Host.Core.run Sys2Proof.core k s

/-- The next edge accepts the command `i` (30_encoding.md R84). -/
abbrev State.accepts (s : State) (i : Instr) : Prop :=
  s.cmdReady s.pins = true ∧ s.pins.cmdValid = true ∧ decode s.pins.word = i

/-- The host asserts rst in none of the next `k` cycles. -/
abbrev State.noReset (s : State) (k : Nat) : Prop := ∀ p ∈ s.host.take k, p.rst = false

/-! ### The invariant -/

/-- What holds after the first reset edge (10_state.md R42), with the two facts about the fill that make it inductive
(40_table_gen.md R110, R112) and the canonical form of TABLE. R42 (f) holds by the types of REG and RESULT. -/
structure State.Inv (s : State) : Prop where
  tableCanonical : s.table.wf = true
  /-- R42 (a). -/
  openFrameHasNoResult : s.inFrame = true → s.resultValid = false
  /-- R42 (b). -/
  errIffCause : s.err = false ↔ s.errCause = 0b00#2
  /-- R42 (c). -/
  causeNotReserved : s.errCause ≠ 0b11#2
  /-- R42 (d). -/
  fillPhase : s.ready = false →
    s.inFrame = false ∧ s.resultValid = false ∧ s.err = false ∧ s.reg = s.cfg.seed ∧ s.result = 0
  /-- R42 (e), R112. -/
  tableFilled : s.ready = true → ∀ i : Byte, s.table.read i = s.cfg.tg i
  /-- R32: after the fill FILL_IDX holds 0. -/
  fillIdxRests : s.ready = true → s.fillIdx = 0
  /-- R110: the entries below FILL_IDX are filled. -/
  tablePartlyFilled : s.ready = false → ∀ i : Byte, i < s.fillIdx → s.table.read i = s.cfg.tg i

/-! ### Frames -/

/-- The commands the host presents in these cycles, in order. -/
def commandsOf (cycles : List Pins) : List Instr :=
  (cycles.filter fun p => p.cmdValid).map fun p => decode p.word

/-- These cycles hold exactly the frame of a stream: no reset, and apart from NOPs and idle cycles the commands INIT,
BYTE s_0, ..., BYTE s_(n-1), FINAL (R123). -/
def IsFrameOf (bytes : List Byte) (cycles : List Pins) : Prop :=
  (∀ p ∈ cycles, p.rst = false) ∧
    (commandsOf cycles).filter (fun i => i ≠ .nop) = .init :: bytes.map .byte ++ [.final]

/-- Cycles in which a host presents commands back to back. -/
def presentAll (is : List Instr) : List Pins := is.map fun i => Pins.present (encode i) 0

/-! ### Reference forms of the arithmetic -/

/-- `k` times the same function on numbers. -/
def iterateNat (f : Nat → Nat) : Nat → Nat → Nat
  | 0, r => r
  | k + 1, r => iterateNat f k (f r)

/-- R102's pseudocode on natural numbers below 2^SW. -/
def tgMsbNat (sw poly x : Nat) : Nat :=
  iterateNat (fun r => if 2 ^ (sw - 1) ≤ r then (2 * r % 2 ^ sw) ^^^ poly else 2 * r % 2 ^ sw) 8
    (x * 2 ^ (sw - 8) % 2 ^ sw)

/-- R103's pseudocode on natural numbers. -/
def tgReflNat (poly x : Nat) : Nat :=
  iterateNat (fun r => if r % 2 = 1 then (r / 2) ^^^ poly else r / 2) 8 x

/-- One stream byte by bit-serial division, with no table: the byte is added into the register where its first bit is
divided first (20_memory.md R63), then eight iterations (R107). -/
def serialUpd (c : Config) (r : BitVec c.sw) (b : Byte) : BitVec c.sw :=
  match c.variant.tableAlgorithm with
  | .msbFirst => iterateBits (msbIteration c.polySW) 8 (r ^^^ (b.setWidth c.sw <<< (c.sw - 8)))
  | .reflected => iterateBits (reflIteration c.polySW) 8 (r ^^^ b.setWidth c.sw)

/-- The checksum of a stream by bit-serial division (R107). -/
def serialCrc (c : Config) (bytes : List Byte) : BitVec c.sw :=
  fin c (bytes.foldl (serialUpd c) c.seed)

end Sys2Proof.Machine
end

