-- ==== Sys2Proof/Certificates/Slice0/Obligations.lean ====
section
/-! DEFINITION. The statements for the provers, in the order of the spec's files. Every statement is about every
configuration and, but for the premises it names, about every state, reachable or not; a power-up state is any state
(log 4). "Marked derived" says that the spec marks the rule as its own inference from other rules. Next states are
written as updates of the state before, so that what they do not name is unchanged. -/

open Sys2Proof Sys2Proof.Machine

/-! ### 00_scope, 10_state: configuration, state, outputs -/

/-- R3: for every configuration W, SW, the table algorithm, the update form, the seed and the final inversion are the
row of the variant table; R20 gives the default polynomials. -/
def Obligations.VariantTableFixesEveryConstant : Prop :=
  (∀ c : Config,
    (c.variant = .crc4 → c.w = 4 ∧ c.sw = 8 ∧ c.variant.tableAlgorithm = .msbFirst ∧
      c.variant.updateForm = .oneByte ∧ c.seed.toNat = 0xFF ∧ c.variant.finalInversion = false) ∧
    (c.variant = .crc8 → c.w = 8 ∧ c.sw = 8 ∧ c.variant.tableAlgorithm = .msbFirst ∧
      c.variant.updateForm = .oneByte ∧ c.seed.toNat = 0xFF ∧ c.variant.finalInversion = false) ∧
    (c.variant = .crc16 → c.w = 16 ∧ c.sw = 16 ∧ c.variant.tableAlgorithm = .msbFirst ∧
      c.variant.updateForm = .twoByte ∧ c.seed.toNat = 0xFFFF ∧ c.variant.finalInversion = false) ∧
    (c.variant = .crc32 → c.w = 32 ∧ c.sw = 32 ∧ c.variant.tableAlgorithm = .reflected ∧
      c.variant.updateForm = .fourByteReflected ∧ c.seed.toNat = 0xFFFFFFFF ∧ c.variant.finalInversion = true)) ∧
  crcEngine4b = ⟨.crc4, 0x3⟩ ∧ crcEngine8b = ⟨.crc8, 0x31⟩ ∧ crcEngine16b = ⟨.crc16, 0x1021⟩ ∧
    crcEngine32b = ⟨.crc32, 0xEDB88320⟩

/-- R22 and log 15: elaboration refuses exactly a width outside the set and a POLY that does not fit in W bits, each
by its name; what it accepts has the width and the polynomial asked for. -/
def Obligations.ElaborationRefusesExactlyTheUnsupported : Prop :=
  ∀ r : RawConfig,
    (r.elaborate = .error .unsupportedVariant ↔ ¬ (r.width = 4 ∨ r.width = 8 ∨ r.width = 16 ∨ r.width = 32)) ∧
    (r.elaborate = .error .polyTooWide ↔
      (r.width = 4 ∨ r.width = 8 ∨ r.width = 16 ∨ r.width = 32) ∧ 2 ^ r.width ≤ r.poly) ∧
    (r.wellFormed = true ↔ ∃ c, r.elaborate = .ok c) ∧
    (∀ c, r.elaborate = .ok c → c.w = r.width ∧ c.poly.toNat = r.poly)

/-- R21 and log 15: any W-bit value is a legal polynomial: elaboration accepts the width and polynomial of every
configuration, and gives that configuration back. -/
def Obligations.EveryPolynomialOfTheWidthElaborates : Prop :=
  ∀ c : Config, RawConfig.elaborate ⟨c.w, c.poly.toNat⟩ = .ok c

/-- R33, R39, and log 1, the generics as a field of State: no step writes VARIANT or POLY, over any run, so poly_o
reads POLY in every cycle. -/
def Obligations.ConfigurationIsNeverWritten : Prop :=
  ∀ (k : Nat) (s t : State), run k s = .next t → t.cfg = s.cfg ∧ t.polyO.toNat = s.cfg.poly.toNat

/-- R24: only INIT and a BYTE in a frame write REG, and reset writes SEED. -/
def Obligations.RegIsWrittenOnlyByInitByteAndReset : Prop :=
  ∀ s t : State, step s = .next t → t.reg.toNat ≠ s.reg.toNat →
    (s.pins.rst = true ∧ t.reg.toNat = 2 ^ s.cfg.sw - 1) ∨
    (s.accepts .init ∧ t.reg.toNat = 2 ^ s.cfg.sw - 1) ∨
    (∃ b, s.accepts (.byte b) ∧ s.inFrame = true ∧ t.reg.toNat = (upd s.cfg s.table.read s.reg b).toNat)

/-- R26: only a FINAL (in a frame, R129) writes RESULT, and reset writes 0. -/
def Obligations.ResultIsWrittenOnlyByFinalAndReset : Prop :=
  ∀ s t : State, step s = .next t → t.result.toNat ≠ s.result.toNat →
    (s.pins.rst = true ∧ t.result.toNat = 0) ∨
    (s.accepts .final ∧ s.inFrame = true ∧ t.result.toNat = (fin s.cfg s.reg).toNat)

/-- R27: RESULT_VALID is set by an accepted FINAL in a frame, cleared by an accepted INIT and by reset, and otherwise
keeps its value. -/
def Obligations.ResultValidIsSetAndClearedAsStated : Prop :=
  ∀ s t : State, step s = .next t →
    (t.resultValid = true ↔
      (s.accepts .final ∧ s.inFrame = true) ∨
      (s.resultValid = true ∧ ¬ s.accepts .init ∧ s.pins.rst = false))

/-- R28: IN_FRAME is set by INIT, cleared by FINAL and by reset, and otherwise keeps its value. -/
def Obligations.InFrameIsSetAndClearedAsStated : Prop :=
  ∀ s t : State, step s = .next t →
    (t.inFrame = true ↔ s.accepts .init ∨ (s.inFrame = true ∧ ¬ s.accepts .final ∧ s.pins.rst = false))

/-- R30: a reset edge writes 00 to ERR_CAUSE; at any other edge ERR_CAUSE changes only if ERR goes from 0 to 1, and then
it becomes 01 for a BYTE and 10 for a FINAL outside a frame. So code 11 is never written. -/
def Obligations.ErrCauseIsWrittenOnlyWhenErrRises : Prop :=
  ∀ s t : State, step s = .next t →
    (s.pins.rst = true → t.errCause = 0b00#2) ∧
    (s.pins.rst = false → t.errCause ≠ s.errCause →
      s.err = false ∧ t.err = true ∧ s.inFrame = false ∧
        ((∃ b, s.accepts (.byte b) ∧ t.errCause = 0b01#2) ∨ (s.accepts .final ∧ t.errCause = 0b10#2)))

/-- R31, R45, R110: READY and FILL_IDX are written only by reset and the fill: reset writes 0 to both, a fill edge
increments FILL_IDX modulo 256, and the fill edge of index 255 sets READY. -/
def Obligations.ReadyAndFillIdxAreWrittenOnlyByResetAndFill : Prop :=
  ∀ s t : State, step s = .next t →
    (t.ready = true ↔ s.pins.rst = false ∧ (s.ready = true ∨ s.fillIdx = 255#8)) ∧
    t.fillIdx.toNat =
      (if s.pins.rst = true then 0 else if s.ready = true then s.fillIdx.toNat else (s.fillIdx.toNat + 1) % 256)

/-- R34: no port shows REG or FILL_IDX: two states that differ only there have the same outputs under every input. -/
def Obligations.RegAndFillIdxShowOnNoPort : Prop :=
  ∀ (s : State) (r : BitVec s.cfg.sw) (k : Byte) (p : Pins),
    State.outputs { s with reg := r, fillIdx := k } p = s.outputs p

/-- R35: cmd_ready = READY AND NOT rst. -/
def Obligations.CmdReadyIsReadyAndNotRst : Prop :=
  ∀ (s : State) (p : Pins), s.cmdReady p = true ↔ s.ready = true ∧ p.rst = false

/-- R36, R37, R38: crc_o is the low W bits of RESULT, all of it but for CRC4, where it is the low 4 of 8 bits;
crc_raw_o is RESULT and crc_valid_o is RESULT_VALID. -/
def Obligations.ChecksumPortsShowResult : Prop :=
  ∀ s : State,
    s.crcO.toNat = s.result.toNat % 2 ^ s.cfg.w ∧
    (s.cfg.variant = .crc4 → s.crcO.toNat = s.result.toNat % 16) ∧
    (s.cfg.variant ≠ .crc4 → s.crcO.toNat = s.result.toNat) ∧
    s.crcRawO = s.result ∧ s.crcValidO = s.resultValid

/-- R40, R135: tbl_data_o is TABLE[tbl_addr] while READY = 1 and 0 otherwise. -/
def Obligations.TablePortShowsTheTableOnlyWhenReady : Prop :=
  ∀ (s : State) (p : Pins),
    (s.ready = true → s.tblDataO p = s.table.read p.tblAddr) ∧
    (s.ready = false → s.tblDataO p = 0)

/-- R41: the fields of status_o. -/
def Obligations.StatusWordHoldsTheFiveFields : Prop :=
  ∀ s : State,
    s.statusO.getLsbD 0 = s.ready ∧ s.statusO.getLsbD 1 = s.inFrame ∧ s.statusO.getLsbD 2 = s.resultValid ∧
    s.statusO.getLsbD 3 = s.err ∧ s.statusO.extractLsb' 4 2 = s.errCause

/-- R30, R41, R42 (b, c): a host reads the status of every state that meets the invariant, and reads the fields that
state holds, with a cause exactly when ERR = 1, the one whose code ERR_CAUSE holds; the reserved cause 11 is refused
(the refusal is the treatment of 93_implementation_defined.md, log 12). -/
def Obligations.StatusOfAnInvariantStateIsReadable : Prop :=
  (∀ s : State, s.Inv → ∃ v, decodeStatus s.statusO = some v ∧
    v.ready = s.ready ∧ v.inFrame = s.inFrame ∧ v.resultValid = s.resultValid ∧ v.err = s.err ∧
    v.cause.isSome = s.err ∧ ∀ e : ProtocolError, v.cause = some e → s.errCause = e.code) ∧
  (∀ s : State, s.errCause = 0b11#2 → decodeStatus s.statusO = none)

/-- R42, R175 (marked derived): from any power-up state whose TABLE is in canonical form, after a first reset edge and
any number of edges more, whatever the host drives, the machine is in a state in which R42 (a) to (f) hold. -/
def Obligations.InvariantsHoldAfterTheFirstResetEdge : Prop :=
  ∀ (s : State) (k : Nat), s.table.wf = true → s.pins.rst = true →
    ∃ t, run (k + 1) s = .next t ∧
      (t.inFrame = true → t.resultValid = false) ∧
      (t.err = false ↔ t.errCause = 0b00#2) ∧
      t.errCause ≠ 0b11#2 ∧
      (t.ready = false →
        t.inFrame = false ∧ t.resultValid = false ∧ t.err = false ∧ t.reg = t.cfg.seed ∧ t.result = 0) ∧
      (t.ready = true → ∀ i : Byte, t.table.read i = t.cfg.tg i) ∧
      (t.cfg.variant = .crc32 → t.reg.toNat < 2 ^ 32 ∧ t.result.toNat < 2 ^ 32)

/-- R45, and log 2, log 3, log 5 for the engine, TABLE and the host's inputs, which are the model's choices: the
state right after reset, for every configuration, and that it meets the invariant. -/
def Obligations.InvariantHoldsAtReset : Prop :=
  ∀ c : Config, (State.resetOf c).Inv ∧
    (State.resetOf c).reg.toNat = 2 ^ c.sw - 1 ∧ (State.resetOf c).result = 0 ∧
    (State.resetOf c).statusO = 0#6 ∧ (State.resetOf c).fillIdx = 0 ∧ State.reset.Inv

/-- R42 with R110 and R32 (marked derived): every step keeps the invariant, in every state that meets it. -/
def Obligations.EveryStepKeepsTheInvariant : Prop :=
  ∀ s t : State, s.Inv → step s = .next t → t.Inv

/-! ### 20_memory: TABLE -/

/-- R61: no command writes TABLE, at any index; and no command writes the configuration, READY, FILL_IDX or the
host's inputs. -/
def Obligations.NoCommandWritesTheTable : Prop :=
  ∀ (i : Instr) (s t : State), exec i s = .next t →
    (∀ a : Byte, (t.table.read a).toNat = (s.table.read a).toNat) ∧
    t.cfg = s.cfg ∧ t.ready = s.ready ∧ t.fillIdx = s.fillIdx ∧ t.host = s.host

/-- R69: reading has no side effect: the step does not depend on the table address the host drives. -/
def Obligations.TableReadsHaveNoSideEffect : Prop :=
  ∀ (s : State) (p : Pins) (rest : List Pins) (a : Byte), s.host = p :: rest →
    step { s with host := { p with tblAddr := a } :: rest } = step s

/-- R72, R112 (both marked derived): from a READY state that meets the invariant, over any number of edges without
reset, READY stays 1 and every entry of TABLE stays TG of its index. -/
def Obligations.TableNeverChangesWhileReady : Prop :=
  ∀ (k : Nat) (s : State), s.Inv → s.ready = true → s.noReset k →
    ∃ t, run k s = .next t ∧ t.ready = true ∧
      ∀ i : Byte, t.table.read i = t.cfg.tg i ∧ (t.table.read i).toNat = (s.table.read i).toNat

/-! ### 30_encoding -/

/-- R85: every word matches exactly one row of the opcode map, the decoder gives that row's command, and BYTE's
operand is word[7:0]. -/
def Obligations.EveryWordMatchesExactlyOneRow : Prop :=
  ∀ w : CmdWord,
    (opcodeRows.filter fun r => r.matches w).map (fun r => r.mnemonic) = [(decode w).mnemonic] ∧
    (∀ b, decode w = .byte b → b.toNat = w.toNat % 256)

/-- R82, R86: the data of NOP, INIT and FINAL is ignored: words that differ only in data decode alike, unless the op
is BYTE's, whose operand is the data. -/
def Obligations.DataBitsAreIgnoredExceptForByte : Prop :=
  (∀ (op : Op) (d d' : Byte), op ≠ 0b10#2 → decode (cmdWord op d) = decode (cmdWord op d')) ∧
  (∀ d : Byte, decode (cmdWord 0b10#2 d) = .byte d)

/-- R88: decoding the encoding of a command gives the command back. -/
def Obligations.DecodeOfEncodeIsTheCommand : Prop :=
  ∀ i : Instr, i.wellFormed = true → decode (encode i) = i

/-- R82, R88: encoding what a word decodes to gives the word back, with data 0x00 unless it is a BYTE. -/
def Obligations.EncodeOfDecodeIsTheCanonicalWord : Prop :=
  ∀ w : CmdWord, encode (decode w) = if CmdWord.op w = 0b10#2 then w else cmdWord (CmdWord.op w) 0

/-- R80, R81, R88: words written out from the encoding: 00 00000000, 01 00000000, 10 00110001, 11 00000000. -/
def Obligations.WordsOfTheEncodingDecodeToTheirCommands : Prop :=
  decode 0b0000000000#10 = .nop ∧ decode 0b0100000000#10 = .init ∧ decode 0b1000110001#10 = .byte 0x31 ∧
    decode 0b1100000000#10 = .final

/-- R80, R87 and log 8: a number of at most ten bits is read as the word it is, a wider one is rejected. -/
def Obligations.TableWordsAreReadAsTheWordTheyAre : Prop :=
  ∀ w : Nat, (w < 1024 → decodeTableWord 16 w = some (decode (BitVec.ofNat 10 w))) ∧
    (1024 ≤ w → w < 65536 → decodeTableWord 16 w = none)

/-- R88, R89: what each statement assembles to, and which statements are assembly errors. -/
def Obligations.AssemblerExpandsEachStatementAsStated : Prop :=
  Asm.Stmt.nop.assemble = .ok [.nop] ∧ Asm.Stmt.init.assemble = .ok [.init] ∧
  Asm.Stmt.final.assemble = .ok [.final] ∧
  (∀ n, n < 256 → (Asm.Stmt.byte n).assemble = .ok [.byte (BitVec.ofNat 8 n)]) ∧
  (∀ n, 256 ≤ n → (Asm.Stmt.byte n).assemble = .error .immOutOfRange) ∧
  (∀ n ns, (∀ m ∈ n :: ns, m < 256) →
    (Asm.Stmt.bytes (n :: ns)).assemble = .ok ((n :: ns).map fun m => .byte (BitVec.ofNat 8 m))) ∧
  (∀ ns, (∃ m ∈ ns, 256 ≤ m) → (Asm.Stmt.bytes ns).assemble = .error .immOutOfRange) ∧
  (∀ text : List Char, (∀ c ∈ text, 0x20 ≤ c.toNat ∧ c.toNat ≤ 0x7E) →
    (Asm.Stmt.str text).assemble = .ok (text.map fun c => .byte (BitVec.ofNat 8 c.toNat)) ∧
    (Asm.Stmt.crc text).assemble =
      .ok (.init :: (text.map fun c => .byte (BitVec.ofNat 8 c.toNat)) ++ [.final])) ∧
  (∀ text : List Char, (∃ c ∈ text, c.toNat < 0x20 ∨ 0x7E < c.toNat) →
    (Asm.Stmt.str text).assemble = .error .badTextCharacter ∧
    (Asm.Stmt.crc text).assemble = .error .badTextCharacter)

/-! ### 40_table_gen -/

/-- R102: TG of an MSB-first variant is the pseudocode, on numbers, with its corner cases and examples. -/
def Obligations.MsbFirstGeneratorIsThePseudocode : Prop :=
  (∀ c : Config, c.variant ≠ .crc32 →
    (∀ x : Byte, (c.tg x).toNat = tgMsbNat c.sw c.poly.toNat x.toNat) ∧
    c.tg 0 = 0 ∧ c.tg 1 = c.polySW ∧ c.polySW.toNat = c.poly.toNat ∧ (c.poly = 0 → ∀ x, c.tg x = 0)) ∧
  (crcEngine4b.tg 0x80).toNat = 0x83 ∧ (crcEngine8b.tg 0x01).toNat = 0x31 ∧
  (crcEngine8b.tg 0xFF).toNat = 0xAC ∧ (crcEngine16b.tg 0x01).toNat = 0x1021 ∧
  (crcEngine16b.tg 0x80).toNat = 0x9188

/-- R103: TG of CRC32 is the pseudocode, on numbers, with its corner cases and examples. -/
def Obligations.ReflectedGeneratorIsThePseudocode : Prop :=
  (∀ c : Config, c.variant = .crc32 →
    (∀ x : Byte, (c.tg x).toNat = tgReflNat c.poly.toNat x.toNat) ∧
    c.tg 0 = 0 ∧ (c.tg 0x80).toNat = c.poly.toNat ∧ (c.poly = 0 → ∀ x, c.tg x = 0)) ∧
  (crcEngine32b.tg 0x01).toNat = 0x77073096 ∧ (crcEngine32b.tg 0x80).toNat = 0xEDB88320 ∧
  (crcEngine32b.tg 0xFF).toNat = 0x2D02EF8D

/-- R105 (marked derived): TG is linear over XOR, so TG(x) is the XOR of TG(2^k) over the set bits k of x. -/
def Obligations.TableGeneratorIsLinear : Prop :=
  ∀ c : Config,
    (∀ a b : Byte, c.tg (a ^^^ b) = c.tg a ^^^ c.tg b) ∧
    (∀ x : Byte, c.tg x =
      (List.range 8).foldl (fun v k => if x.getLsbD k then v ^^^ c.tg (BitVec.ofNat 8 (2 ^ k)) else v) 0)

/-- R107 (its equivalence is marked there as general knowledge): the checksum by table equals the checksum by
bit-serial division, for every configuration and every stream. -/
def Obligations.TableDrivenChecksumIsBitSerialDivision : Prop :=
  ∀ (c : Config) (bytes : List Byte), streamCrc c bytes = serialCrc c bytes

/-- R110: a fill edge writes TG(FILL_IDX) into entry FILL_IDX and no other, increments FILL_IDX modulo 256 and sets
READY exactly at index 255; nothing else changes, and no command is accepted at it. -/
def Obligations.FillEdgeWritesOneEntry : Prop :=
  ∀ s : State, s.table.wf = true → s.pins.rst = false → s.ready = false →
    s.cmdReady s.pins = false ∧
    ∃ filled : Memory s.cfg.sw,
      step s = .next
        { s with
          table := filled
          fillIdx := BitVec.ofNat 8 ((s.fillIdx.toNat + 1) % 256)
          ready := decide (s.fillIdx.toNat = 255)
          host := s.host.tail } ∧
      filled.wf = true ∧
      ∀ i : Byte, filled.read i = if i = s.fillIdx then s.cfg.tg s.fillIdx else s.table.read i

/-- R111 (marked derived): after a reset edge the n-th edge with rst = 0 writes TABLE[n-1], for n = 1 .. 256; READY is
0 until the 256th; the 257th edge is the first that can accept a command. What the host presents meanwhile has no
effect. -/
def Obligations.FillTakesExactly256Edges : Prop :=
  ∀ s : State, s.table.wf = true → s.ready = false → s.fillIdx = 0 → s.noReset 257 →
    (∀ n, n ≤ 256 → ∃ filled : Memory s.cfg.sw,
      run n s = .next
        { s with
          table := filled
          fillIdx := BitVec.ofNat 8 n
          ready := decide (n = 256)
          host := s.host.drop n } ∧
      ∀ i : Byte, filled.read i = if i.toNat < n then s.cfg.tg i else s.table.read i) ∧
    (∀ p, s.host[256]? = some p → p.cmdValid = true →
      run 257 s = thenNextCycle (exec (decode p.word)
        { s with table := fullTable s.cfg, fillIdx := 0, ready := true, host := s.host.drop 256 }))

/-! ### 41_commands -/

/-- R120: at an edge with rst = 0 and READY = 1 at which the host presents a command, the step is that command's
execution, chosen by its op; then, and only then, the host's inputs go on to the next cycle. -/
def Obligations.StepRunsTheAcceptedCommand : Prop :=
  ∀ s : State, s.pins.rst = false → s.ready = true → s.pins.cmdValid = true →
    ∃ (i : Instr) (t : State),
      i = decode (s.pins.cmdOp ++ s.pins.cmdData) ∧
      exec i s = .next t ∧ step s = .next { t with host := s.host.tail } ∧
      (s.pins.cmdOp = 0b00#2 → i = .nop) ∧ (s.pins.cmdOp = 0b01#2 → i = .init) ∧
      (s.pins.cmdOp = 0b10#2 → i = .byte s.pins.cmdData) ∧ (s.pins.cmdOp = 0b11#2 → i = .final)

/-- R121, R84: an edge with rst = 0, READY = 1 and cmd_valid = 0 changes nothing; and while cmd_ready = 0 the step is
the same whatever the host presents on the command pins. -/
def Obligations.UnacceptedCommandsHaveNoEffect : Prop :=
  (∀ s : State, s.pins.rst = false → s.ready = true → s.pins.cmdValid = false →
    step s = .next { s with host := s.host.tail }) ∧
  (∀ (s : State) (p : Pins) (rest : List Pins) (v : Bool) (op : Op) (d : Byte),
    s.host = p :: rest → s.cmdReady p = false →
    step { s with host := { p with cmdValid := v, cmdOp := op, cmdData := d } :: rest } = step s)

/-- R122: NOP leaves every state element unchanged, and every data byte of op 00 is NOP. -/
def Obligations.NopChangesNothing : Prop :=
  (∀ s : State, exec .nop s = .next s) ∧ (∀ d : Byte, decode (cmdWord 0b00#2 d) = .nop) ∧ encode .nop = 0x000#10

/-- R124: INIT seeds REG with all-ones, opens a frame and clears RESULT_VALID, in every state; nothing else changes.
With ERR = 0 and READY = 1 the status word is then 000011, and with CRC16 REG is 0xFFFF. -/
def Obligations.InitStartsAFrame : Prop :=
  (∀ s : State,
    exec .init s = .next { s with reg := BitVec.allOnes s.cfg.sw, inFrame := true, resultValid := false }) ∧
  (∀ s t : State, exec .init s = .next t → s.Inv → s.ready = true → s.err = false →
    t.statusO = 0b000011#6 ∧ (s.cfg.variant = .crc16 → t.reg.toNat = 0xFFFF)) ∧
  (∀ d : Byte, decode (cmdWord 0b01#2 d) = .init) ∧ encode .init = 0x100#10

/-- R126, the one-byte form, on numbers: in a frame BYTE b sets REG to TABLE[REG XOR b]; nothing else changes. With
the rule's corner cases and examples, over a TABLE that holds TG. -/
def Obligations.ByteInFrameOneByteForm : Prop :=
  (∀ (s : State) (b : Byte), s.inFrame = true → s.cfg.variant = .crc4 ∨ s.cfg.variant = .crc8 →
    exec (.byte b) s = .next { s with reg := s.table.read (BitVec.ofNat 8 (s.reg.toNat ^^^ b.toNat)) }) ∧
  (∀ c : Config, c.variant = .crc4 ∨ c.variant = .crc8 →
    (∀ (r : BitVec c.sw) (b : Byte), r.toNat = b.toNat → upd c c.tg r b = 0) ∧
    upd c c.tg c.seed 0xFF = 0 ∧ upd c c.tg 0 1 = c.polySW) ∧
  (crcEngine4b.tg 0xCE).toNat = 0x51 ∧ (upd crcEngine4b crcEngine4b.tg 0xFF#8 0x31).toNat = 0x51 ∧
  (upd crcEngine8b crcEngine8b.tg 0xFF#8 0x31).toNat = 0x58

/-- R127, the two-byte form, on numbers: in a frame BYTE b sets REG to (REG << 8) XOR TABLE[REG[15:8] XOR b]; nothing
else changes. With the rule's corner cases and example, over a TABLE that holds TG. -/
def Obligations.ByteInFrameTwoByteForm : Prop :=
  (∀ (s : State) (b : Byte), s.inFrame = true → s.cfg.variant = .crc16 →
    exec (.byte b) s = .next
      { s with
        reg := BitVec.ofNat s.cfg.sw
          ((s.reg.toNat % 256 * 256) ^^^ (s.table.read (BitVec.ofNat 8 (s.reg.toNat / 256 ^^^ b.toNat))).toNat) }) ∧
  (∀ c : Config, c.variant = .crc16 →
    (upd c c.tg c.seed 0xFF).toNat = 0xFF00 ∧ upd c c.tg 0 1 = c.polySW) ∧
  (upd crcEngine16b crcEngine16b.tg 0#16 0x01).toNat = 0x1021 ∧
  (upd crcEngine16b crcEngine16b.tg 0xFFFF#16 0x31).toNat = 0xC782

/-- R128, the four-byte reflected form, on numbers: in a frame BYTE b sets REG to TABLE[REG[7:0] XOR b] XOR
(REG >> 8); nothing else changes. With the rule's corner cases and example, over a TABLE that holds TG. -/
def Obligations.ByteInFrameFourByteForm : Prop :=
  (∀ (s : State) (b : Byte), s.inFrame = true → s.cfg.variant = .crc32 →
    exec (.byte b) s = .next
      { s with
        reg := BitVec.ofNat s.cfg.sw
          ((s.table.read (BitVec.ofNat 8 (s.reg.toNat % 256 ^^^ b.toNat))).toNat ^^^ (s.reg.toNat / 256)) }) ∧
  (∀ c : Config, c.variant = .crc32 → (upd c c.tg c.seed 0xFF).toNat = 0x00FFFFFF) ∧
  (upd crcEngine32b crcEngine32b.tg 0#32 0x01).toNat = 0x77073096 ∧
  (upd crcEngine32b crcEngine32b.tg 0xFFFFFFFF#32 0x31).toNat = 0x7C231048

/-- R129 with R130: in a frame FINAL sets RESULT to the one's complement of REG for CRC32 and to REG otherwise, sets
RESULT_VALID and closes the frame, and REG is not written; outside a frame it records FINAL_OUTSIDE_FRAME, and RESULT
and RESULT_VALID keep their values. Nothing else changes. Every data byte of op 11 is FINAL. With R129's example. -/
def Obligations.FinalPublishesInAFrameAndErrsOutside : Prop :=
  (∀ s : State, s.inFrame = true →
    exec .final s = .next
      { s with
        result := if s.cfg.variant = .crc32 then BitVec.ofNat s.cfg.sw (2 ^ 32 - 1 - s.reg.toNat) else s.reg
        resultValid := true
        inFrame := false }) ∧
  (∀ s : State, s.inFrame = false →
    exec .final s = .next { s with err := true, errCause := if s.err = true then s.errCause else 0b10#2 }) ∧
  (∀ d : Byte, decode (cmdWord 0b11#2 d) = .final) ∧ encode .final = 0x300#10 ∧
  (([0x31, 0x32, 0x33, 0x34, 0x35, 0x36, 0x37, 0x38, 0x39] : List Byte).foldl
    (upd crcEngine32b crcEngine32b.tg) crcEngine32b.seed).toNat = 0x340BC6D9 ∧
  (fin crcEngine32b 0x340BC6D9#32).toNat = 0xCBF43926

/-- R123 (marked derived): from any READY state that meets the invariant, over cycles that hold the frame of a stream
(with any NOPs and idle cycles between), FINAL's RESULT is CRC_V of the stream, RESULT_VALID = 1, the frame is closed,
and nothing but REG changes besides. -/
def Obligations.AFrameComputesTheChecksumOfItsStream : Prop :=
  ∀ (s : State) (bytes : List Byte) (cycles rest : List Pins),
    s.Inv → s.ready = true → s.host = cycles ++ rest → IsFrameOf bytes cycles →
    ∃ r : BitVec s.cfg.sw,
      run cycles.length s = .next
        { s with
          reg := r
          result := streamCrc s.cfg bytes
          resultValid := true
          inFrame := false
          host := rest }

/-- R131 (marked derived): an empty frame gives RESULT = FIN(SEED): 0xFF (crc_o 0xF), 0xFF, 0xFFFF, 0. -/
def Obligations.AnEmptyFrameGivesTheFinalizedSeed : Prop :=
  ∀ (s : State) (cycles rest : List Pins),
    s.ready = true → s.host = cycles ++ rest → IsFrameOf [] cycles →
    ∃ t, run cycles.length s = .next t ∧ t.cfg = s.cfg ∧ t.resultValid = true ∧
      (s.cfg.variant = .crc4 → t.result.toNat = 0xFF ∧ t.crcO.toNat = 0xF) ∧
      (s.cfg.variant = .crc8 → t.result.toNat = 0xFF ∧ t.crcO.toNat = 0xFF) ∧
      (s.cfg.variant = .crc16 → t.result.toNat = 0xFFFF ∧ t.crcO.toNat = 0xFFFF) ∧
      (s.cfg.variant = .crc32 → t.result.toNat = 0 ∧ t.crcO.toNat = 0)

/-- R132, R133 (both marked derived): the RESULT of a frame depends only on its bytes: two READY states with the same
generics, whatever else they hold and however the host spaces the commands, end the same stream's frame with the same
checksum. -/
def Obligations.FramesDoNotAccumulate : Prop :=
  ∀ (s s' : State) (bytes : List Byte) (cycles cycles' rest rest' : List Pins),
    s.Inv → s'.Inv → s.cfg = s'.cfg → s.ready = true → s'.ready = true →
    s.host = cycles ++ rest → s'.host = cycles' ++ rest' → IsFrameOf bytes cycles → IsFrameOf bytes cycles' →
    ∃ t t', run cycles.length s = .next t ∧ run cycles'.length s' = .next t' ∧
      t.result.toNat = t'.result.toNat ∧ t.crcO.toNat = t'.crcO.toNat ∧
      t.resultValid = true ∧ t'.resultValid = true

/-! ### 60_exceptions -/

/-- R151, R152: a BYTE or FINAL outside a frame sets ERR; ERR_CAUSE becomes 01 or 10 if ERR was 0 and is kept if it
was 1; the byte is not recorded, and nothing else is written. -/
def Obligations.AProtocolErrorRecordsTheFirstCauseOnly : Prop :=
  ∀ s : State, s.inFrame = false →
    (∀ b : Byte, exec (.byte b) s = .next
      { s with err := true, errCause := if s.err = true then s.errCause else 0b01#2 }) ∧
    exec .final s = .next { s with err := true, errCause := if s.err = true then s.errCause else 0b10#2 }

/-- R29, R151: no command reads ERR: over any run, states that differ only in ERR and ERR_CAUSE go through the same
states but for ERR and ERR_CAUSE. -/
def Obligations.ErrorFlagsNeverChangeBehaviour : Prop :=
  ∀ (k : Nat) (s t : State) (e : Bool) (c : BitVec 2), run k s = .next t →
    ∃ (e' : Bool) (c' : BitVec 2), run k { s with err := e, errCause := c } = .next { t with err := e', errCause := c' }

/-- R156, R29: ERR and ERR_CAUSE, once set, keep their values over any number of edges without reset, whatever the
host presents, a second error changes nothing at all, and a reset edge clears both. -/
def Obligations.ErrorsStickUntilReset : Prop :=
  (∀ (k : Nat) (s : State), s.err = true → s.noReset k →
    ∃ t, run k s = .next t ∧ t.err = true ∧ t.errCause = s.errCause) ∧
  (∀ s : State, s.err = true → s.inFrame = false →
    exec .final s = .next s ∧ ∀ b : Byte, exec (.byte b) s = .next s) ∧
  (∀ s : State, s.pins.rst = true → ∃ t, step s = .next t ∧ t.err = false ∧ t.errCause = 0b00#2)

/-- R150, R155 (marked derived), log 11: nothing stops the machine: any number of edges, in any state and whatever the
host drives, lead to a next state. -/
def Obligations.NothingStopsTheMachine : Prop :=
  ∀ (k : Nat) (s : State), ∃ t, run k s = .next t

/-! ### 70_reset_and_hazards -/

/-- R170: the step is one of four cases, tested in this order. -/
def Obligations.AnEdgeIsOneOfFourCases : Prop :=
  ∀ s : State,
    step s =
      if s.pins.rst = true then .next s.resetEdge.nextCycle
      else if s.ready = false then .next s.fillEdge.nextCycle
      else if s.pins.cmdValid = true then thenNextCycle (exec (decode s.pins.word) s)
      else .next s.nextCycle

/-- R171: what a reset edge writes, in every state; TABLE and the configuration are left unchanged, and cmd_ready is 0
whenever rst is 1. -/
def Obligations.AResetEdgeWritesTheResetValues : Prop :=
  (∀ (s : State) (p : Pins), p.rst = true → s.cmdReady p = false) ∧
  ∀ s : State, s.pins.rst = true →
    step s = .next
      { s with
        reg := BitVec.allOnes s.cfg.sw
        result := 0
        resultValid := false
        inFrame := false
        err := false
        errCause := 0b00#2
        ready := false
        fillIdx := 0
        host := s.host.tail }

/-- R173 (marked derived): rst held for several edges applies the reset values at each of them, and the fill starts,
at index 0, at the first edge with rst = 0. -/
def Obligations.HeldResetReappliesTheResetValues : Prop :=
  ∀ (k : Nat) (s : State), k + 1 ≤ s.host.length → (∀ p ∈ s.host.take (k + 1), p.rst = true) →
    ∃ t, run (k + 1) s = .next t ∧
      t = { s with
            reg := BitVec.allOnes s.cfg.sw
            result := 0
            resultValid := false
            inFrame := false
            err := false
            errCause := 0b00#2
            ready := false
            fillIdx := 0
            host := s.host.drop (k + 1) } ∧
      (t.pins.rst = false → step t = .next
        { t with table := t.table.write 0 (t.cfg.tg 0), fillIdx := 1, host := t.host.tail })

/-- R181 (marked derived): FINAL's checksum shows from the cycle after the accepting edge; in the cycle that presents
it the ports still show the old RESULT. -/
def Obligations.FinalShowsInTheNextCycle : Prop :=
  ∀ s : State, s.accepts .final → s.inFrame = true →
    s.crcRawO = s.result ∧ s.crcO.toNat = s.result.toNat % 2 ^ s.cfg.w ∧ s.crcValidO = s.resultValid ∧
    ∃ t, step s = .next t ∧ t.crcRawO.toNat = (fin s.cfg s.reg).toNat ∧
      t.crcO.toNat = (fin s.cfg s.reg).toNat % 2 ^ s.cfg.w ∧ t.crcValidO = true ∧
      t.statusO.getLsbD 1 = false ∧ t.statusO.getLsbD 2 = true

/-- R182 (marked derived): from an accepted INIT on, over any number of edges at which neither a FINAL is accepted nor
rst asserted, crc_o shows the old checksum with crc_valid_o = 0. -/
def Obligations.StaleResultStaysUntilTheNextFinal : Prop :=
  ∀ (k : Nat) (s : State), s.accepts .init →
    (∀ p ∈ s.host.take (k + 1), p.rst = false ∧ (p.cmdValid = true → decode p.word ≠ .final)) →
    ∃ t, run (k + 1) s = .next t ∧ t.crcO.toNat = s.crcO.toNat ∧ t.crcRawO.toNat = s.crcRawO.toNat ∧
      t.crcValidO = false

/-- R186, R175, R172 (marked derived): a whole run. From any power-up state whose TABLE is in canonical form: one or
more reset edges, 256 edges with rst = 0, then the frame of a stream. It ends with crc_raw_o = CRC_V of the stream,
crc_o its low W bits, crc_valid_o = 1 and status_o = 000101. -/
def Obligations.AWholeRunObservesTheChecksum : Prop :=
  ∀ (s : State) (bytes : List Byte) (resets fill cycles rest : List Pins),
    s.table.wf = true → s.host = resets ++ fill ++ cycles ++ rest →
    resets ≠ [] → (∀ p ∈ resets, p.rst = true) →
    fill.length = 256 → (∀ p ∈ fill, p.rst = false) →
    IsFrameOf bytes cycles →
    ∃ t, run (resets.length + 256 + cycles.length) s = .next t ∧ t.host = rest ∧
      t.crcRawO.toNat = (streamCrc s.cfg bytes).toNat ∧
      t.crcO.toNat = (streamCrc s.cfg bytes).toNat % 2 ^ s.cfg.w ∧
      t.crcValidO = true ∧ t.statusO = 0b000101#6

/-- Log 7 (the model's convention): the state that `withFetchWord` makes for a command word runs exactly that command
at its very next step, from any state; from reset, what it adds beside the pins is what 256 idle edges leave. -/
def Obligations.WithFetchWordRunsTheCommandNext : Prop :=
  (∀ (s : State) (w : Nat), w < 1024 →
    step (s.withFetchWord 16 w) =
      thenNextCycle (exec (decode (BitVec.ofNat 10 w)) (s.withFetchWord 16 w)) ∧
    ∃ p : Pins, s.withFetchWord 16 w = { s.afterFill with host := p :: s.host.tail }) ∧
  (∀ c : Config, run 256 (State.resetOf c) = .next (State.resetOf c).afterFill)
end

