-- ==== Sys2Proof/Laws/Memory.lean ====
section
/-! SUPPORT. TABLE as memory: a read after a write, the canonical form that every write keeps, that canonical memories
with equal reads are equal, and the table a whole fill leaves. -/

namespace Sys2Proof.Machine

variable {n : Nat}

@[simp] theorem Memory.readAt_nil (k : Nat) : Memory.readAt ([] : Memory n) k = Memory.unlisted := rfl

theorem Memory.wfFrom_mono {lo lo' : Nat} {m : Memory n} (h : Memory.wfFrom lo m = true) (hle : lo' ≤ lo) :
    Memory.wfFrom lo' m = true := by
  cases m with
  | nil => rfl
  | cons c rest =>
    simp only [Memory.wfFrom, Bool.and_eq_true, decide_eq_true_eq] at h ⊢
    exact ⟨⟨⟨by omega, h.1.1.2⟩, h.1.2⟩, h.2⟩

/-- Below its first index a canonical memory reads as an unlisted index. -/
theorem Memory.readAt_below {lo k : Nat} {m : Memory n} (h : Memory.wfFrom lo m = true) (hk : k < lo) :
    Memory.readAt m k = Memory.unlisted := by
  induction m generalizing lo with
  | nil => rfl
  | cons c rest ih =>
    simp only [Memory.wfFrom, Bool.and_eq_true, decide_eq_true_eq] at h
    have hne : c.1 ≠ k := by omega
    simp only [Memory.readAt, hne, if_false]
    exact ih h.2 (by omega)

theorem Memory.readAt_consCell {lo k : Nat} {v : BitVec n} {rest : Memory n}
    (h : Memory.wfFrom lo rest = true) (hk : k < lo) (k' : Nat) :
    Memory.readAt (Memory.consCell k v rest) k' = if k = k' then v else Memory.readAt rest k' := by
  unfold Memory.consCell
  split
  · split
    · next hv hkk => subst hkk; rw [hv, Memory.readAt_below h hk]
    · rfl
  · rfl

theorem Memory.wfFrom_consCell {lo k : Nat} {v : BitVec n} {rest : Memory n}
    (h : Memory.wfFrom (k + 1) rest = true) (hlo : lo ≤ k) (hk : k < 256) :
    Memory.wfFrom lo (Memory.consCell k v rest) = true := by
  unfold Memory.consCell
  split
  · exact Memory.wfFrom_mono h (by omega)
  · next hv => simp [Memory.wfFrom, h, hlo, hk, hv]

/-- A read after a write, in a canonical memory. -/
theorem Memory.readAt_writeAt {lo : Nat} {m : Memory n} (h : Memory.wfFrom lo m = true) (k : Nat) (v : BitVec n)
    (k' : Nat) : Memory.readAt (Memory.writeAt m k v) k' = if k = k' then v else Memory.readAt m k' := by
  induction m generalizing lo with
  | nil => exact Memory.readAt_consCell (lo := k + 1) (rest := []) rfl (by omega) k'
  | cons c rest ih =>
    obtain ⟨j, u⟩ := c
    have hc := h
    simp only [Memory.wfFrom, Bool.and_eq_true, decide_eq_true_eq] at h
    simp only [Memory.writeAt]
    split
    · next hlt =>
      have hw : Memory.wfFrom j ((j, u) :: rest) = true := by simp [Memory.wfFrom, h.1.1.2, h.2]; simpa using h.1.2
      exact Memory.readAt_consCell hw hlt k'
    · split
      · next heq =>
        subst heq
        rw [Memory.readAt_consCell h.2 (by omega)]
        simp only [Memory.readAt]
        split <;> rfl
      · next hne =>
        simp only [Memory.readAt]
        split
        · next hj => rw [if_neg (by omega)]
        · exact ih h.2

/-- A write keeps the canonical form. -/
theorem Memory.wfFrom_writeAt {lo k : Nat} {m : Memory n} (h : Memory.wfFrom lo m = true) (hlo : lo ≤ k) (hk : k < 256)
    (v : BitVec n) : Memory.wfFrom lo (Memory.writeAt m k v) = true := by
  induction m generalizing lo with
  | nil => exact Memory.wfFrom_consCell rfl hlo hk
  | cons c rest ih =>
    obtain ⟨j, u⟩ := c
    simp only [Memory.wfFrom, Bool.and_eq_true, decide_eq_true_eq] at h
    simp only [Memory.writeAt]
    split
    · next hlt =>
      refine Memory.wfFrom_consCell ?_ hlo hk
      simp only [Memory.wfFrom, Bool.and_eq_true, decide_eq_true_eq]
      exact ⟨⟨⟨by omega, h.1.1.2⟩, h.1.2⟩, h.2⟩
    · split
      · next heq => subst heq; exact Memory.wfFrom_consCell h.2 hlo hk
      · simp only [Memory.wfFrom, Bool.and_eq_true, decide_eq_true_eq]
        exact ⟨⟨⟨h.1.1.1, h.1.1.2⟩, h.1.2⟩, ih h.2 (by omega)⟩

/-- Two canonical memories that read alike are the same list. -/
theorem Memory.eq_of_readAt {lo : Nat} {m m' : Memory n} (h : Memory.wfFrom lo m = true)
    (h' : Memory.wfFrom lo m' = true) (hr : ∀ k, k < 256 → Memory.readAt m k = Memory.readAt m' k) : m = m' := by
  induction m generalizing lo m' with
  | nil =>
    cases m' with
    | nil => rfl
    | cons c' rest' =>
      simp only [Memory.wfFrom, Bool.and_eq_true, decide_eq_true_eq, Bool.not_eq_true', decide_eq_false_iff_not] at h'
      have := hr c'.1 h'.1.1.2
      simp only [Memory.readAt, if_true] at this
      exact absurd this.symm h'.1.2
  | cons c rest ih =>
    obtain ⟨j, v⟩ := c
    simp only [Memory.wfFrom, Bool.and_eq_true, decide_eq_true_eq, Bool.not_eq_true', decide_eq_false_iff_not] at h
    have hj := hr j h.1.1.2
    simp only [Memory.readAt, if_true] at hj
    cases m' with
    | nil => exact absurd hj h.1.2
    | cons c' rest' =>
      obtain ⟨j', v'⟩ := c'
      simp only [Memory.wfFrom, Bool.and_eq_true, decide_eq_true_eq, Bool.not_eq_true', decide_eq_false_iff_not] at h'
      have hj' := hr j' h'.1.1.2
      simp only [Memory.readAt, if_true] at hj'
      have hjj : j = j' := by
        rcases Nat.lt_trichotomy j j' with hlt | heq | hgt
        · simp only [Memory.readAt] at hj
          rw [if_neg (by omega), Memory.readAt_below h'.2 (by omega)] at hj
          exact absurd hj h.1.2
        · exact heq
        · rw [if_neg (by omega), Memory.readAt_below h.2 (by omega)] at hj'
          exact absurd hj'.symm h'.1.2
      subst hjj
      simp only [Memory.readAt, if_true] at hj
      subst hj
      congr 1
      refine ih h.2 h'.2 fun k hk => ?_
      by_cases hkj : k ≤ j
      · rw [Memory.readAt_below h.2 (by omega), Memory.readAt_below h'.2 (by omega)]
      · have := hr k hk
        simp only [Memory.readAt] at this
        rwa [if_neg (by omega), if_neg (by omega)] at this

/-! ### At 8-bit indices -/

@[simp] theorem Memory.wf_nil : Memory.wf ([] : Memory n) = true := rfl

@[simp] theorem Memory.read_nil (i : Byte) : Memory.read ([] : Memory n) i = 0 := rfl

/-- The write law of TABLE: the written index reads the value, every other index reads as before. -/
theorem Memory.read_write {m : Memory n} (h : m.wf = true) (i : Byte) (v : BitVec n) (j : Byte) :
    (m.write i v).read j = if j = i then v else m.read j := by
  have := Memory.readAt_writeAt h i.toNat v j.toNat
  unfold Memory.read Memory.write
  rw [this]
  by_cases hij : j = i
  · subst hij; simp
  · rw [if_neg hij, if_neg (fun hc => hij (BitVec.eq_of_toNat_eq hc.symm))]

/-- Every write keeps the canonical form of TABLE. -/
theorem Memory.wf_write {m : Memory n} (h : m.wf = true) (i : Byte) (v : BitVec n) : (m.write i v).wf = true :=
  Memory.wfFrom_writeAt h (Nat.zero_le _) i.isLt v

/-- Equal memories are equal data. -/
theorem Memory.eq_of_read {m m' : Memory n} (h : m.wf = true) (h' : m'.wf = true)
    (hr : ∀ i : Byte, m.read i = m'.read i) : m = m' := by
  refine Memory.eq_of_readAt h h' fun k hk => ?_
  have := hr (BitVec.ofNat 8 k)
  simpa [Memory.read, Nat.mod_eq_of_lt hk] using this

/-! ### The table a whole fill leaves -/

/-- Cells for the indices from `lo` on, built from the last one down. -/
theorem Memory.foldr_consCell (f : Nat → BitVec n) (len lo : Nat) (hlen : lo + len ≤ 256) :
    Memory.wfFrom lo ((List.range' lo len).foldr (fun i rest => Memory.consCell i (f i) rest) []) = true ∧
      ∀ k, Memory.readAt ((List.range' lo len).foldr (fun i rest => Memory.consCell i (f i) rest) []) k =
        if lo ≤ k ∧ k < lo + len then f k else Memory.unlisted := by
  induction len generalizing lo with
  | zero => exact ⟨rfl, fun k => by rw [if_neg (by omega)]; rfl⟩
  | succ len ih =>
    obtain ⟨hw, hr⟩ := ih (lo + 1) (by omega)
    rw [List.range'_succ, List.foldr_cons]
    refine ⟨Memory.wfFrom_consCell hw (Nat.le_refl _) (by omega), fun k => ?_⟩
    rw [Memory.readAt_consCell hw (by omega), hr k]
    by_cases hk : lo = k
    · subst hk; rw [if_pos rfl, if_pos (by omega)]
    · rw [if_neg hk]
      by_cases hin : lo + 1 ≤ k ∧ k < lo + 1 + len
      · rw [if_pos hin, if_pos (by omega)]
      · rw [if_neg hin, if_neg (by omega)]

theorem fullTable_wf (c : Config) : (fullTable c).wf = true := by
  have := (Memory.foldr_consCell (fun i => c.tg (BitVec.ofNat 8 i)) 256 0 (by omega)).1
  rwa [← List.range_eq_range'] at this

/-- After a whole fill entry i is TG(i). -/
theorem fullTable_read (c : Config) (i : Byte) : (fullTable c).read i = c.tg i := by
  have := (Memory.foldr_consCell (fun i => c.tg (BitVec.ofNat 8 i)) 256 0 (by omega)).2 i.toNat
  rw [← List.range_eq_range', if_pos ⟨Nat.zero_le _, by have := i.isLt; omega⟩] at this
  simpa [Memory.read, fullTable] using this

end Sys2Proof.Machine
end

