-- ==== Sys2Proof/Laws/TableGen.lean ====
section
/-! SUPPORT. The small lemmas of crc_table_gen: the iterator, that one iteration is linear over XOR, and TG at the two
algorithms. -/

namespace Sys2Proof

variable {n : Nat}

@[simp] theorem iterateBits_zero (f : BitVec n → BitVec n) (r : BitVec n) : iterateBits f 0 r = r := rfl

@[simp] theorem iterateBits_succ (f : BitVec n → BitVec n) (k : Nat) (r : BitVec n) :
    iterateBits f (k + 1) r = iterateBits f k (f r) := rfl

/-- What holds of one iteration's arguments and result holds after any number of them. -/
theorem iterateBits_linear (f : BitVec n → BitVec n) (hf : ∀ a b, f (a ^^^ b) = f a ^^^ f b) (k : Nat)
    (a b : BitVec n) : iterateBits f k (a ^^^ b) = iterateBits f k a ^^^ iterateBits f k b := by
  induction k generalizing a b with
  | zero => rfl
  | succ k ih => rw [iterateBits_succ, hf, ih]; rfl

theorem msbIteration_xor (poly a b : BitVec n) :
    msbIteration poly (a ^^^ b) = msbIteration poly a ^^^ msbIteration poly b := by
  unfold msbIteration
  rw [BitVec.msb_xor]
  cases a.msb <;> cases b.msb <;> ext i <;> simp <;> grind

theorem reflIteration_xor (poly a b : BitVec n) :
    reflIteration poly (a ^^^ b) = reflIteration poly a ^^^ reflIteration poly b := by
  unfold reflIteration
  rw [BitVec.getLsbD_xor]
  cases a.getLsbD 0 <;> cases b.getLsbD 0 <;> ext i <;> simp <;> grind

theorem Config.tg_of_msbFirst {c : Config} (h : c.variant.tableAlgorithm = .msbFirst) (x : Byte) :
    c.tg x = tgMsb c.polySW x := by
  unfold Config.tg; rw [h]

theorem Config.tg_of_reflected {c : Config} (h : c.variant.tableAlgorithm = .reflected) (x : Byte) :
    c.tg x = tgRefl c.polySW x := by
  unfold Config.tg; rw [h]

end Sys2Proof
end

