-- ==== Sys2Proof/Laws/Operands.lean ====
section
/-! SUPPORT. The small lemmas of UPD and FIN. -/

namespace Sys2Proof.Machine

theorem upd_of_form {c : Config} {form : UpdateForm} (h : c.variant.updateForm = form)
    (lookup : Byte → BitVec c.sw) (r : BitVec c.sw) (b : Byte) :
    upd c lookup r b = combineEntry form r (lookup (tableIndex form r b)) := by
  subst h; rfl

/-- UPD depends on the table only through the entries it holds. -/
theorem upd_congr {c : Config} {lookup lookup' : Byte → BitVec c.sw} (h : ∀ i, lookup i = lookup' i)
    (r : BitVec c.sw) (b : Byte) : upd c lookup r b = upd c lookup' r b := by
  rw [show lookup = lookup' from funext h]

theorem fin_inverts {c : Config} (h : c.variant.finalInversion = true) (r : BitVec c.sw) : fin c r = ~~~r := by
  simp [fin, h]

theorem fin_keeps {c : Config} (h : c.variant.finalInversion = false) (r : BitVec c.sw) : fin c r = r := by
  simp [fin, h]

end Sys2Proof.Machine
end

