-- ==== Sys2Proof/Laws/PerInstr.lean ====
section
/-! SUPPORT. Laws that are made per instruction. `EncodedInOwnRow`: the word the encoder gives a command matches
exactly the row of the opcode map that has its mnemonic (30_encoding.md R85, R88). -/

namespace Sys2Proof.Laws.EncodedInOwnRow

/-- The only row that the encoding of a command matches is its own. -/
def Statement (i : Instr) : Prop := ∀ r ∈ opcodeRows, r.matches (encode i) = true ↔ r.mnemonic = i.mnemonic

theorem nop : Statement .nop := by unfold Statement; decide

theorem init : Statement .init := by unfold Statement; decide

theorem byte (b : Byte) : Statement (.byte b) := by unfold Statement; revert b; decide

theorem final : Statement .final := by unfold Statement; decide

end Sys2Proof.Laws.EncodedInOwnRow
end

