-- ==== Sys2Proof/Laws/State.lean ====
section
/-! SUPPORT. For each named update of State, what every field holds after it: one lemma per field, true by rfl, so that
no later proof unfolds a record update. -/

namespace Sys2Proof.Machine

variable (s : State)

@[simp] theorem State.setReg_cfg (v : BitVec s.cfg.sw) : (s.setReg v).cfg = s.cfg := rfl
@[simp] theorem State.setReg_reg (v : BitVec s.cfg.sw) : (s.setReg v).reg = v := rfl
@[simp] theorem State.setReg_table (v : BitVec s.cfg.sw) : (s.setReg v).table = s.table := rfl
@[simp] theorem State.setReg_result (v : BitVec s.cfg.sw) : (s.setReg v).result = s.result := rfl
@[simp] theorem State.setReg_resultValid (v : BitVec s.cfg.sw) : (s.setReg v).resultValid = s.resultValid := rfl
@[simp] theorem State.setReg_inFrame (v : BitVec s.cfg.sw) : (s.setReg v).inFrame = s.inFrame := rfl
@[simp] theorem State.setReg_err (v : BitVec s.cfg.sw) : (s.setReg v).err = s.err := rfl
@[simp] theorem State.setReg_errCause (v : BitVec s.cfg.sw) : (s.setReg v).errCause = s.errCause := rfl
@[simp] theorem State.setReg_ready (v : BitVec s.cfg.sw) : (s.setReg v).ready = s.ready := rfl
@[simp] theorem State.setReg_fillIdx (v : BitVec s.cfg.sw) : (s.setReg v).fillIdx = s.fillIdx := rfl
@[simp] theorem State.setReg_host (v : BitVec s.cfg.sw) : (s.setReg v).host = s.host := rfl

@[simp] theorem State.setResult_cfg (v : BitVec s.cfg.sw) : (s.setResult v).cfg = s.cfg := rfl
@[simp] theorem State.setResult_reg (v : BitVec s.cfg.sw) : (s.setResult v).reg = s.reg := rfl
@[simp] theorem State.setResult_table (v : BitVec s.cfg.sw) : (s.setResult v).table = s.table := rfl
@[simp] theorem State.setResult_result (v : BitVec s.cfg.sw) : (s.setResult v).result = v := rfl
@[simp] theorem State.setResult_resultValid (v : BitVec s.cfg.sw) : (s.setResult v).resultValid = s.resultValid := rfl
@[simp] theorem State.setResult_inFrame (v : BitVec s.cfg.sw) : (s.setResult v).inFrame = s.inFrame := rfl
@[simp] theorem State.setResult_err (v : BitVec s.cfg.sw) : (s.setResult v).err = s.err := rfl
@[simp] theorem State.setResult_errCause (v : BitVec s.cfg.sw) : (s.setResult v).errCause = s.errCause := rfl
@[simp] theorem State.setResult_ready (v : BitVec s.cfg.sw) : (s.setResult v).ready = s.ready := rfl
@[simp] theorem State.setResult_fillIdx (v : BitVec s.cfg.sw) : (s.setResult v).fillIdx = s.fillIdx := rfl
@[simp] theorem State.setResult_host (v : BitVec s.cfg.sw) : (s.setResult v).host = s.host := rfl

@[simp] theorem State.openFrame_cfg : (s.openFrame).cfg = s.cfg := rfl
@[simp] theorem State.openFrame_reg : (s.openFrame).reg = s.reg := rfl
@[simp] theorem State.openFrame_table : (s.openFrame).table = s.table := rfl
@[simp] theorem State.openFrame_result : (s.openFrame).result = s.result := rfl
@[simp] theorem State.openFrame_resultValid : (s.openFrame).resultValid = false := rfl
@[simp] theorem State.openFrame_inFrame : (s.openFrame).inFrame = true := rfl
@[simp] theorem State.openFrame_err : (s.openFrame).err = s.err := rfl
@[simp] theorem State.openFrame_errCause : (s.openFrame).errCause = s.errCause := rfl
@[simp] theorem State.openFrame_ready : (s.openFrame).ready = s.ready := rfl
@[simp] theorem State.openFrame_fillIdx : (s.openFrame).fillIdx = s.fillIdx := rfl
@[simp] theorem State.openFrame_host : (s.openFrame).host = s.host := rfl

@[simp] theorem State.closeFrame_cfg : (s.closeFrame).cfg = s.cfg := rfl
@[simp] theorem State.closeFrame_reg : (s.closeFrame).reg = s.reg := rfl
@[simp] theorem State.closeFrame_table : (s.closeFrame).table = s.table := rfl
@[simp] theorem State.closeFrame_result : (s.closeFrame).result = s.result := rfl
@[simp] theorem State.closeFrame_resultValid : (s.closeFrame).resultValid = true := rfl
@[simp] theorem State.closeFrame_inFrame : (s.closeFrame).inFrame = false := rfl
@[simp] theorem State.closeFrame_err : (s.closeFrame).err = s.err := rfl
@[simp] theorem State.closeFrame_errCause : (s.closeFrame).errCause = s.errCause := rfl
@[simp] theorem State.closeFrame_ready : (s.closeFrame).ready = s.ready := rfl
@[simp] theorem State.closeFrame_fillIdx : (s.closeFrame).fillIdx = s.fillIdx := rfl
@[simp] theorem State.closeFrame_host : (s.closeFrame).host = s.host := rfl

@[simp] theorem State.raiseProtocolError_cfg (e : ProtocolError) : (s.raiseProtocolError e).cfg = s.cfg := rfl
@[simp] theorem State.raiseProtocolError_reg (e : ProtocolError) : (s.raiseProtocolError e).reg = s.reg := rfl
@[simp] theorem State.raiseProtocolError_table (e : ProtocolError) : (s.raiseProtocolError e).table = s.table := rfl
@[simp] theorem State.raiseProtocolError_result (e : ProtocolError) : (s.raiseProtocolError e).result = s.result := rfl
@[simp] theorem State.raiseProtocolError_resultValid (e : ProtocolError) : (s.raiseProtocolError e).resultValid = s.resultValid := rfl
@[simp] theorem State.raiseProtocolError_inFrame (e : ProtocolError) : (s.raiseProtocolError e).inFrame = s.inFrame := rfl
@[simp] theorem State.raiseProtocolError_err (e : ProtocolError) : (s.raiseProtocolError e).err = true := rfl
@[simp] theorem State.raiseProtocolError_errCause (e : ProtocolError) : (s.raiseProtocolError e).errCause = if s.err then s.errCause else e.code := rfl
@[simp] theorem State.raiseProtocolError_ready (e : ProtocolError) : (s.raiseProtocolError e).ready = s.ready := rfl
@[simp] theorem State.raiseProtocolError_fillIdx (e : ProtocolError) : (s.raiseProtocolError e).fillIdx = s.fillIdx := rfl
@[simp] theorem State.raiseProtocolError_host (e : ProtocolError) : (s.raiseProtocolError e).host = s.host := rfl

@[simp] theorem State.nextCycle_cfg : (s.nextCycle).cfg = s.cfg := rfl
@[simp] theorem State.nextCycle_reg : (s.nextCycle).reg = s.reg := rfl
@[simp] theorem State.nextCycle_table : (s.nextCycle).table = s.table := rfl
@[simp] theorem State.nextCycle_result : (s.nextCycle).result = s.result := rfl
@[simp] theorem State.nextCycle_resultValid : (s.nextCycle).resultValid = s.resultValid := rfl
@[simp] theorem State.nextCycle_inFrame : (s.nextCycle).inFrame = s.inFrame := rfl
@[simp] theorem State.nextCycle_err : (s.nextCycle).err = s.err := rfl
@[simp] theorem State.nextCycle_errCause : (s.nextCycle).errCause = s.errCause := rfl
@[simp] theorem State.nextCycle_ready : (s.nextCycle).ready = s.ready := rfl
@[simp] theorem State.nextCycle_fillIdx : (s.nextCycle).fillIdx = s.fillIdx := rfl
@[simp] theorem State.nextCycle_host : (s.nextCycle).host = s.host.tail := rfl

@[simp] theorem State.resetEdge_cfg : (s.resetEdge).cfg = s.cfg := rfl
@[simp] theorem State.resetEdge_reg : (s.resetEdge).reg = s.cfg.seed := rfl
@[simp] theorem State.resetEdge_table : (s.resetEdge).table = s.table := rfl
@[simp] theorem State.resetEdge_result : (s.resetEdge).result = 0 := rfl
@[simp] theorem State.resetEdge_resultValid : (s.resetEdge).resultValid = false := rfl
@[simp] theorem State.resetEdge_inFrame : (s.resetEdge).inFrame = false := rfl
@[simp] theorem State.resetEdge_err : (s.resetEdge).err = false := rfl
@[simp] theorem State.resetEdge_errCause : (s.resetEdge).errCause = 0 := rfl
@[simp] theorem State.resetEdge_ready : (s.resetEdge).ready = false := rfl
@[simp] theorem State.resetEdge_fillIdx : (s.resetEdge).fillIdx = 0 := rfl
@[simp] theorem State.resetEdge_host : (s.resetEdge).host = s.host := rfl

@[simp] theorem State.fillEdge_cfg : (s.fillEdge).cfg = s.cfg := rfl
@[simp] theorem State.fillEdge_reg : (s.fillEdge).reg = s.reg := rfl
@[simp] theorem State.fillEdge_table : (s.fillEdge).table = s.table.write s.fillIdx (s.cfg.tg s.fillIdx) := rfl
@[simp] theorem State.fillEdge_result : (s.fillEdge).result = s.result := rfl
@[simp] theorem State.fillEdge_resultValid : (s.fillEdge).resultValid = s.resultValid := rfl
@[simp] theorem State.fillEdge_inFrame : (s.fillEdge).inFrame = s.inFrame := rfl
@[simp] theorem State.fillEdge_err : (s.fillEdge).err = s.err := rfl
@[simp] theorem State.fillEdge_errCause : (s.fillEdge).errCause = s.errCause := rfl
@[simp] theorem State.fillEdge_ready : (s.fillEdge).ready = if s.fillIdx = 255 then true else s.ready := rfl
@[simp] theorem State.fillEdge_fillIdx : (s.fillEdge).fillIdx = s.fillIdx + 1 := rfl
@[simp] theorem State.fillEdge_host : (s.fillEdge).host = s.host := rfl

@[simp] theorem State.afterFill_cfg : (s.afterFill).cfg = s.cfg := rfl
@[simp] theorem State.afterFill_reg : (s.afterFill).reg = s.reg := rfl
@[simp] theorem State.afterFill_table : (s.afterFill).table = if s.ready then s.table else fullTable s.cfg := rfl
@[simp] theorem State.afterFill_result : (s.afterFill).result = s.result := rfl
@[simp] theorem State.afterFill_resultValid : (s.afterFill).resultValid = s.resultValid := rfl
@[simp] theorem State.afterFill_inFrame : (s.afterFill).inFrame = s.inFrame := rfl
@[simp] theorem State.afterFill_err : (s.afterFill).err = s.err := rfl
@[simp] theorem State.afterFill_errCause : (s.afterFill).errCause = s.errCause := rfl
@[simp] theorem State.afterFill_ready : (s.afterFill).ready = true := rfl
@[simp] theorem State.afterFill_fillIdx : (s.afterFill).fillIdx = if s.ready then s.fillIdx else 0 := rfl
@[simp] theorem State.afterFill_host : (s.afterFill).host = s.host := rfl

end Sys2Proof.Machine
end

