-- ==== Sys2Proof/Laws/Step.lean ====
section
/-! SUPPORT. Everything a command and a step can do, said once: if `exec` or `step` answers a next state, then one of
these cases holds. Later proofs cite these two lemmas and unfold neither function. -/

namespace Sys2Proof.Machine

/-- Everything an executed command can do (41_commands.md R122 to R129). -/
theorem exec_cases {i : Instr} {s t : State} (h : exec i s = .next t) :
    (i = .nop ∧ t = s) ∨
    (i = .init ∧ t = (s.setReg s.cfg.seed).openFrame) ∨
    (∃ b, i = .byte b ∧ s.inFrame = true ∧ t = s.setReg (upd s.cfg s.table.read s.reg b)) ∨
    (∃ b, i = .byte b ∧ s.inFrame = false ∧ t = s.raiseProtocolError .byteOutsideFrame) ∨
    (i = .final ∧ s.inFrame = true ∧ t = (s.setResult (fin s.cfg s.reg)).closeFrame) ∨
    (i = .final ∧ s.inFrame = false ∧ t = s.raiseProtocolError .finalOutsideFrame) := by
  cases i with
  | nop => injection h with h; exact .inl ⟨rfl, h.symm⟩
  | init => injection h with h; exact .inr (.inl ⟨rfl, h.symm⟩)
  | byte b =>
    simp only [exec, execByte] at h
    split at h
    · next hf => injection h with h; exact .inr (.inr (.inl ⟨b, rfl, hf, h.symm⟩))
    · next hf => injection h with h; exact .inr (.inr (.inr (.inl ⟨b, rfl, by simpa using hf, h.symm⟩)))
  | final =>
    simp only [exec, execFinal] at h
    split at h
    · next hf => injection h with h; exact .inr (.inr (.inr (.inr (.inl ⟨rfl, hf, h.symm⟩))))
    · next hf => injection h with h; exact .inr (.inr (.inr (.inr (.inr ⟨rfl, by simpa using hf, h.symm⟩))))

@[simp] theorem thenNextCycle_next (t : State) : thenNextCycle (.next t) = .next t.nextCycle := rfl

/-- An edge answers a next state exactly when what it runs does. -/
theorem thenNextCycle_eq_next {o : Host.Outcome State Fault Refusal} {t : State} :
    thenNextCycle o = .next t ↔ ∃ u, o = .next u ∧ t = u.nextCycle := by
  cases o <;> simp [thenNextCycle, eq_comm]

/-- Everything a rising edge can do (70_reset_and_hazards.md R170). -/
theorem step_cases {s t : State} (h : step s = .next t) :
    (s.pins.rst = true ∧ t = s.resetEdge.nextCycle) ∨
    (s.pins.rst = false ∧ s.ready = false ∧ t = s.fillEdge.nextCycle) ∨
    (s.pins.rst = false ∧ s.ready = true ∧ s.pins.cmdValid = true ∧
      ∃ u, exec (decode s.pins.word) s = .next u ∧ t = u.nextCycle) ∨
    (s.pins.rst = false ∧ s.ready = true ∧ s.pins.cmdValid = false ∧ t = s.nextCycle) := by
  unfold step State.edgeCase at h
  cases hr : s.pins.rst <;> cases hy : s.ready <;> cases hv : s.pins.cmdValid <;>
    simp [hr, hy, hv, thenNextCycle_eq_next] at h <;> simp [h]

/-- An accepted command is one of the third case. -/
theorem State.accepts_iff {s : State} {i : Instr} :
    s.accepts i ↔ s.pins.rst = false ∧ s.ready = true ∧ s.pins.cmdValid = true ∧ decode s.pins.word = i := by
  simp only [State.accepts, State.cmdReady, Bool.and_eq_true, Bool.not_eq_true']
  exact ⟨fun ⟨⟨a, b⟩, c, d⟩ => ⟨b, a, c, d⟩, fun ⟨b, a, c, d⟩ => ⟨⟨a, b⟩, c, d⟩⟩

/-- A command neither reads nor writes the host's inputs: only what follows the current cycle matters. -/
theorem thenNextCycle_exec_withHost (i : Instr) (s : State) {l : List Pins} (h : l.tail = s.host.tail) :
    thenNextCycle (exec i { s with host := l }) = thenNextCycle (exec i s) := by
  obtain ⟨c, r, tb, res, rv, f, e, ec, rd, k, hs⟩ := s
  simp only at h
  cases i with
  | nop => simp [exec, execNop, State.nextCycle, h]
  | init => simp [exec, execInit, State.nextCycle, State.setReg, State.openFrame, h]
  | byte b => cases f <;> simp [exec, execByte, State.nextCycle, State.setReg, State.raiseProtocolError, h]
  | final =>
    cases f <;> simp [exec, execFinal, State.nextCycle, State.setResult, State.closeFrame, State.raiseProtocolError, h]

/-! ### Runs, one edge at a time -/

@[simp] theorem run_zero (s : State) : run 0 s = .next s := rfl

/-- A run of `k + 1` edges whose first edge answers `t`. -/
theorem run_succ {s t : State} (h : step s = .next t) (k : Nat) : run (k + 1) s = run k t := by
  simp only [run, Host.Core.run]
  rw [show Sys2Proof.core.step s = .next t from h]

/-- Runs compose. -/
theorem run_add {s t : State} {k : Nat} (h : run k s = .next t) (l : Nat) : run (k + l) s = run l t := by
  induction k generalizing s with
  | zero => injection h with h; rw [h, Nat.zero_add]
  | succ k ih =>
    have hs : ∃ u, step s = .next u := by
      cases hs : step s with
      | next u => exact ⟨u, rfl⟩
      | fault r => cases r
      | refused r =>
        simp only [run, Host.Core.run] at h
        rw [show Sys2Proof.core.step s = .refused r from hs] at h
        cases h
    obtain ⟨u, hu⟩ := hs
    rw [run_succ hu] at h
    rw [Nat.add_right_comm, run_succ hu]
    exact ih h

end Sys2Proof.Machine
end

