-- ==== Sys2Proof/Laws/Ready.lean ====
section
/-! SUPPORT. The READY state of an engine: the state after reset with its fill complete. It meets the invariant, which
is what the witnesses of the statements are built on. -/

namespace Sys2Proof.Machine

/-- The READY state meets the invariant. -/
theorem readyState_inv (c : Config) : ((State.resetOf c).afterFill).Inv where
  tableCanonical := fullTable_wf c
  openFrameHasNoResult := fun h => by cases h
  errIffCause := ⟨fun _ => rfl, fun _ => rfl⟩
  causeNotReserved := by show ¬ (0#2 = 3#2); decide
  fillPhase := fun h => by cases h
  tableFilled := fun _ i => fullTable_read c i
  fillIdxRests := fun _ => rfl
  tablePartlyFilled := fun h => by cases h

/-- The invariant says nothing of what the host will drive. -/
theorem State.Inv.withHost {s : State} (h : s.Inv) (l : List Pins) : State.Inv { s with host := l } :=
  ⟨h.tableCanonical, h.openFrameHasNoResult, h.errIffCause, h.causeNotReserved, h.fillPhase, h.tableFilled,
    h.fillIdxRests, h.tablePartlyFilled⟩

end Sys2Proof.Machine
end

