-- ==== Sys2Proof/Laws/Variant.lean ====
section
/-! SUPPORT. What each variant fixes, one lemma per constant (00_scope.md R3), so that no later proof unfolds the variant
table. -/

namespace Sys2Proof

@[simp] theorem Variant.w_crc4 : Variant.crc4.w = 4 := rfl
@[simp] theorem Variant.sw_crc4 : Variant.crc4.sw = 8 := rfl
@[simp] theorem Variant.tableAlgorithm_crc4 : Variant.crc4.tableAlgorithm = .msbFirst := rfl
@[simp] theorem Variant.updateForm_crc4 : Variant.crc4.updateForm = .oneByte := rfl
@[simp] theorem Variant.finalInversion_crc4 : Variant.crc4.finalInversion = false := rfl

@[simp] theorem Variant.w_crc8 : Variant.crc8.w = 8 := rfl
@[simp] theorem Variant.sw_crc8 : Variant.crc8.sw = 8 := rfl
@[simp] theorem Variant.tableAlgorithm_crc8 : Variant.crc8.tableAlgorithm = .msbFirst := rfl
@[simp] theorem Variant.updateForm_crc8 : Variant.crc8.updateForm = .oneByte := rfl
@[simp] theorem Variant.finalInversion_crc8 : Variant.crc8.finalInversion = false := rfl

@[simp] theorem Variant.w_crc16 : Variant.crc16.w = 16 := rfl
@[simp] theorem Variant.sw_crc16 : Variant.crc16.sw = 16 := rfl
@[simp] theorem Variant.tableAlgorithm_crc16 : Variant.crc16.tableAlgorithm = .msbFirst := rfl
@[simp] theorem Variant.updateForm_crc16 : Variant.crc16.updateForm = .twoByte := rfl
@[simp] theorem Variant.finalInversion_crc16 : Variant.crc16.finalInversion = false := rfl

@[simp] theorem Variant.w_crc32 : Variant.crc32.w = 32 := rfl
@[simp] theorem Variant.sw_crc32 : Variant.crc32.sw = 32 := rfl
@[simp] theorem Variant.tableAlgorithm_crc32 : Variant.crc32.tableAlgorithm = .reflected := rfl
@[simp] theorem Variant.updateForm_crc32 : Variant.crc32.updateForm = .fourByteReflected := rfl
@[simp] theorem Variant.finalInversion_crc32 : Variant.crc32.finalInversion = true := rfl

/-- The storage register holds at least one byte. -/
theorem Config.eight_le_sw (c : Config) : 8 ≤ c.sw := by
  obtain ⟨v, p⟩ := c; cases v <;> simp [Config.sw]

/-- The result is no wider than the register. -/
theorem Config.w_le_sw (c : Config) : c.w ≤ c.sw := by
  obtain ⟨v, p⟩ := c; cases v <;> simp [Config.w, Config.sw]

end Sys2Proof
end

