-- ==== Sys2Proof/Tests/Slice0.lean ====
section
/-! SUPPORT. The model's own tests: words written out from the encoding, one ill-formed term for each check, one or two
steps per command with the values of 95_test_vectors.md, and, for every statement with hypotheses, a witness that
meets them together (`witness_<statement>`). -/

open Sys2Proof Sys2Proof.Machine

namespace Sys2Proof.Tests

/-! ### Small states -/

/-- A READY engine whose host drives `l`. -/
def readyWith (c : Config) (l : List Pins) : State := { (State.resetOf c).afterFill with host := l }

/-- The same engine with a frame open. -/
def framedWith (c : Config) (l : List Pins) : State := { readyWith c l with inFrame := true }

/-- An engine just after a reset edge. -/
def fillingWith (c : Config) (l : List Pins) : State := { State.resetOf c with host := l }

def present (i : Instr) : Pins := Pins.present (encode i) 0

def resetPins : Pins := { Pins.idle with rst := true }

/-- The state an edge answers. -/
def after : Host.Outcome State Fault Refusal → Option State
  | .next t => some t
  | .fault _ => none
  | .refused _ => none

/-- What a test looks at: REG, RESULT, crc_o and status_o. -/
def shown (o : Host.Outcome State Fault Refusal) : Option (Nat × Nat × Nat × Nat) :=
  (after o).map fun t => (t.reg.toNat, t.result.toNat, t.crcO.toNat, t.statusO.toNat)

theorem readyWith_inv (c : Config) (l : List Pins) : (readyWith c l).Inv := (readyState_inv c).withHost l

theorem framedWith_inv (c : Config) (l : List Pins) : (framedWith c l).Inv where
  tableCanonical := (readyWith_inv c l).tableCanonical
  openFrameHasNoResult := fun _ => rfl
  errIffCause := (readyWith_inv c l).errIffCause
  causeNotReserved := (readyWith_inv c l).causeNotReserved
  fillPhase := fun h => by cases h
  tableFilled := (readyWith_inv c l).tableFilled
  fillIdxRests := (readyWith_inv c l).fillIdxRests
  tablePartlyFilled := fun h => by cases h

/-! ### Smoke: each check refuses an ill-formed term (R22, R88, R89) -/

theorem test_width_5_refused : RawConfig.widthSupported ⟨5, 0⟩ = false := by decide
theorem test_poly_too_wide_refused : RawConfig.polyFits ⟨4, 16⟩ = false := by decide
theorem test_illformed_config_refused : RawConfig.wellFormed ⟨8, 0x131⟩ = false := by decide
theorem test_imm_256_refused : Asm.immInRange 256 = false := by decide
theorem test_text_control_character_refused : Asm.textCharacter '\t' = false := by decide
theorem test_illformed_stmt_refused : (Asm.Stmt.bytes [1, 256]).wellFormed = false := by decide
theorem test_commands_wellformed (b : Byte) : (Instr.byte b).wellFormed = true := rfl

/-! ### Decoding: words written out from R80 and R81 -/

theorem test_decode_nop : decode 0b0011111111#10 = .nop := by decide
theorem test_decode_init : decode 0b0110100101#10 = .init := by decide
theorem test_decode_byte : decode 0b1000110001#10 = .byte 0x31 := by decide
theorem test_decode_byte_ff : decode 0b1011111111#10 = .byte 0xFF := by decide
theorem test_decode_final : decode 0b1100000001#10 = .final := by decide
theorem test_table_word_read : decodeTableWord 16 0x231 = some (.byte 0x31) := by decide
theorem test_table_word_too_wide : decodeTableWord 16 0x400 = none := by decide

/-! ### crc_table_gen (95_test_vectors.md 2.1, 2.2) and the known answers (R134) -/

theorem test_tg_crc4 : (crcEngine4b.tg 0xCE).toNat = 0x51 := by decide
theorem test_tg_crc8 : (crcEngine8b.tg 0x31).toNat = 0xF4 := by decide
theorem test_tg_crc16 : (crcEngine16b.tg 0xFF).toNat = 0x1EF0 := by decide
theorem test_tg_crc32 : (crcEngine32b.tg 0x31).toNat = 0x51DE003A := by decide
theorem test_tg_other_poly : (Config.tg ⟨.crc16, 0x8005⟩ 0x80).toNat = 0x8303 := by decide

def checkString : List Byte := [0x31, 0x32, 0x33, 0x34, 0x35, 0x36, 0x37, 0x38, 0x39]

theorem test_known_answer_crc4 : (streamCrc crcEngine4b checkString).toNat = 0x0C := by decide +kernel
theorem test_known_answer_crc8 : (streamCrc crcEngine8b checkString).toNat = 0xF7 := by decide +kernel
theorem test_known_answer_crc16 : (streamCrc crcEngine16b checkString).toNat = 0x29B1 := by decide
theorem test_known_answer_crc32 : (streamCrc crcEngine32b checkString).toNat = 0xCBF43926 := by decide +kernel

/-! ### Commands, one step each (95_test_vectors.md 2.3, 2.6, 2.7, 3) -/

theorem test_nop : shown (exec .nop { framedWith crcEngine8b [] with reg := 0x60 }) =
    some (0x60, 0, 0, 0b000011) := by decide
theorem test_init_keeps_result : shown (exec .init
    { readyWith crcEngine16b [] with reg := 0xB915, result := 0xB915, resultValid := true }) =
    some (0xFFFF, 0xB915, 0xB915, 0b000011) := by decide
theorem test_byte_crc4 : shown (exec (.byte 0xA5) { framedWith crcEngine4b [] with reg := 0x78 }) =
    some (0x64, 0, 0, 0b000011) := by decide +kernel
theorem test_byte_crc16 : shown (exec (.byte 0xA5) { framedWith crcEngine16b [] with reg := 0x5678 }) =
    some (0xA77C, 0, 0, 0b000011) := by decide +kernel
theorem test_byte_crc32 : shown (exec (.byte 0xA5) { framedWith crcEngine32b [] with reg := 0x12345678 }) =
    some (0xF8709A3F, 0, 0, 0b000011) := by decide +kernel
theorem test_byte_outside_frame : shown (exec (.byte 0x31) (readyWith crcEngine8b [])) =
    some (0xFF, 0, 0, 0b011001) := by decide
theorem test_final_crc32 : shown (exec .final { framedWith crcEngine32b [] with reg := 0x340BC6D9 }) =
    some (0x340BC6D9, 0xCBF43926, 0xCBF43926, 0b000101) := by decide
theorem test_final_crc4_masks_port : shown (exec .final { framedWith crcEngine4b [] with reg := 0xC1 }) =
    some (0xC1, 0xC1, 0x1, 0b000101) := by decide
theorem test_final_outside_frame : shown (exec .final { readyWith crcEngine8b [] with result := 0xFF, resultValid := true }) =
    some (0xFF, 0xFF, 0xFF, 0b101101) := by decide

/-! ### Edges and ports (95_test_vectors.md 2.8) -/

theorem test_reset_edge : shown (step { framedWith crcEngine4b [resetPins] with reg := 3, result := 9, err := true }) =
    some (0xFF, 0, 0, 0) := by decide
theorem test_fill_edge_not_accepting : shown (step (fillingWith crcEngine8b [present .init])) = some (0xFF, 0, 0, 0) := by
  decide
theorem test_last_fill_edge_sets_ready :
    shown (step { fillingWith crcEngine8b [present .init] with fillIdx := 255 }) = some (0xFF, 0, 0, 0b000001) := by decide
theorem test_accepted_init : shown (step (readyWith crcEngine8b [present .init])) = some (0xFF, 0, 0, 0b000011) := by decide
theorem test_table_port : ((readyWith crcEngine8b []).tblDataO { Pins.idle with tblAddr := 0xCE }).toNat = 0x58 := by decide +kernel
theorem test_table_port_in_fill : ((fillingWith crcEngine8b []).tblDataO { Pins.idle with tblAddr := 0xCE }).toNat = 0 := by
  decide
theorem test_poly_port : (readyWith crcEngine32b []).polyO.toNat = 0xEDB88320 := by decide
theorem test_first_instruction_after_reset :
    shown (step (State.reset.withFetchWord 16 0x100)) = some (0xFFFFFFFF, 0, 0, 0b000011) := by decide
theorem test_byte_first_after_reset :
    shown (step (State.reset.withFetchWord 16 0x231)) = some (0xFFFFFFFF, 0, 0, 0b011001) := by decide

/-! ### Assembler (R88, R89) -/

/-- `crc "12" ; two`, and `BYTES 0x0a, ',', 255`. -/
theorem test_assemble_text :
    (match Asm.assembleText "crc \"12\" ; two\n\n BYTES 0x0a, ',', 255".toList with
      | .ok is => Asm.words is
      | .error _ => []) = [0x100, 0x231, 0x232, 0x300, 0x20A, 0x22C, 0x2FF] := by decide
theorem test_assemble_imm_out_of_range :
    (match Asm.assembleText "BYTE 0x100".toList with | .ok _ => none | .error e => some e) = some .immOutOfRange := by
  decide

/-! ### Witnesses: every statement with hypotheses has a state that meets them -/

theorem witness_VariantTable : crcEngine4b.variant = .crc4 ∧ crcEngine8b.variant = .crc8 ∧
    crcEngine16b.variant = .crc16 ∧ crcEngine32b.variant = .crc32 := by decide

/-- Both refusals and acceptance, at the edge of the range: 15 and 16 for W = 4. -/
theorem witness_Elaboration :
    (match RawConfig.elaborate ⟨4, 15⟩ with | .ok c => some (c.w, c.poly.toNat) | .error _ => none) = some (4, 15) ∧
    (match RawConfig.elaborate ⟨4, 16⟩ with | .ok _ => none | .error e => some e) = some .polyTooWide ∧
    (match RawConfig.elaborate ⟨64, 0⟩ with | .ok _ => none | .error e => some e) = some .unsupportedVariant := by decide

theorem witness_ConfigurationIsNeverWritten : ∃ t, run 2 (framedWith crcEngine16b [present (.byte 1), resetPins]) = .next t :=
  ⟨_, rfl⟩

theorem witness_RegIsWritten_reset : ∃ t, step { framedWith crcEngine8b [resetPins] with reg := 0 } = .next t ∧
    t.reg.toNat ≠ 0 := ⟨_, rfl, by decide⟩
theorem witness_RegIsWritten_init : ∃ t, step { framedWith crcEngine8b [present .init] with reg := 0 } = .next t ∧
    t.reg.toNat ≠ 0 := ⟨_, rfl, by decide⟩
theorem witness_RegIsWritten_byte : ∃ t, step { framedWith crcEngine8b [present (.byte 1)] with reg := 0 } = .next t ∧
    t.reg.toNat ≠ 0 := ⟨_, rfl, by decide⟩

theorem witness_ResultIsWritten_reset : ∃ t, step { readyWith crcEngine8b [resetPins] with result := 7 } = .next t ∧
    t.result.toNat ≠ 7 := ⟨_, rfl, by decide⟩
theorem witness_ResultIsWritten_final : ∃ t, step (framedWith crcEngine8b [present .final]) = .next t ∧
    t.result.toNat ≠ 0 := ⟨_, rfl, by decide⟩

/-- Both directions of the iff: set by FINAL, cleared by INIT, kept by NOP. -/
theorem witness_ResultValid : (framedWith crcEngine8b [present .final]).accepts .final ∧
    (∃ t, step (framedWith crcEngine8b [present .final]) = .next t ∧ t.resultValid = true) ∧
    (∃ t, step { readyWith crcEngine8b [present .init] with resultValid := true } = .next t ∧ t.resultValid = false) ∧
    (∃ t, step { readyWith crcEngine8b [present .nop] with resultValid := true } = .next t ∧ t.resultValid = true) :=
  ⟨by decide, ⟨_, rfl, by decide⟩, ⟨_, rfl, by decide⟩, ⟨_, rfl, by decide⟩⟩

theorem witness_InFrame : (readyWith crcEngine8b [present .init]).accepts .init ∧
    (∃ t, step (readyWith crcEngine8b [present .init]) = .next t ∧ t.inFrame = true) ∧
    (∃ t, step (framedWith crcEngine8b [present .final]) = .next t ∧ t.inFrame = false) ∧
    (∃ t, step (framedWith crcEngine8b [present (.byte 0)]) = .next t ∧ t.inFrame = true) :=
  ⟨by decide, ⟨_, rfl, by decide⟩, ⟨_, rfl, by decide⟩, ⟨_, rfl, by decide⟩⟩

theorem witness_ErrCause_byte : ∃ t, step (readyWith crcEngine8b [present (.byte 0)]) = .next t ∧ t.errCause = 0b01#2 :=
  ⟨_, rfl, by decide⟩
theorem witness_ErrCause_final : ∃ t, step (readyWith crcEngine8b [present .final]) = .next t ∧ t.errCause = 0b10#2 :=
  ⟨_, rfl, by decide⟩
theorem witness_ErrCause_reset : ∃ t, step { readyWith crcEngine8b [resetPins] with err := true, errCause := 2 } = .next t ∧
    t.errCause = 0b00#2 := ⟨_, rfl, by decide⟩

/-- The fill edges of index 254 and 255. -/
theorem witness_ReadyAndFillIdx :
    (∃ t, step { fillingWith crcEngine8b [] with fillIdx := 254 } = .next t ∧ t.ready = false ∧ t.fillIdx.toNat = 255) ∧
    (∃ t, step { fillingWith crcEngine8b [] with fillIdx := 255 } = .next t ∧ t.ready = true ∧ t.fillIdx.toNat = 0) :=
  ⟨⟨_, rfl, by decide⟩, ⟨_, rfl, by decide⟩⟩

theorem witness_ChecksumPorts : (readyWith crcEngine4b []).cfg.variant = .crc4 ∧
    (readyWith crcEngine8b []).cfg.variant ≠ .crc4 := by decide

theorem witness_TablePort : (readyWith crcEngine8b []).ready = true ∧ (fillingWith crcEngine8b []).ready = false :=
  ⟨rfl, rfl⟩

/-- An engine that has recorded a BYTE outside a frame. -/
theorem erredWith_inv (c : Config) (l : List Pins) :
    State.Inv { readyWith c l with err := true, errCause := 0b01#2 } where
  tableCanonical := (readyWith_inv c l).tableCanonical
  openFrameHasNoResult := (readyWith_inv c l).openFrameHasNoResult
  errIffCause := ⟨fun h => (by cases h), fun h => absurd h (show (0b01#2 : BitVec 2) ≠ 0b00#2 by decide)⟩
  causeNotReserved := show (0b01#2 : BitVec 2) ≠ 0b11#2 by decide
  fillPhase := fun h => by cases h
  tableFilled := (readyWith_inv c l).tableFilled
  fillIdxRests := (readyWith_inv c l).fillIdxRests
  tablePartlyFilled := fun h => by cases h

/-- The clean state, one with each cause read, and one whose cause is the reserved code. -/
theorem witness_StatusReadable : (readyWith crcEngine8b []).Inv ∧
    State.Inv { readyWith crcEngine8b [] with err := true, errCause := 0b01#2 } ∧
    (decodeStatus 0b000001#6).map (fun v => v.cause) = some none ∧
    (decodeStatus 0b011001#6).map (fun v => v.cause) = some (some .byteOutsideFrame) ∧
    (decodeStatus 0b101001#6).map (fun v => v.cause) = some (some .finalOutsideFrame) ∧
    State.errCause { readyWith crcEngine8b [] with errCause := 0b11#2 } = 0b11#2 :=
  ⟨readyWith_inv _ _, erredWith_inv _ _, by decide, by decide, by decide, rfl⟩

/-- A power-up state with a stale TABLE entry. -/
theorem witness_FirstResetEdge :
    (State.table { framedWith crcEngine32b [resetPins] with table := [(255, 7)] }).wf = true ∧
    (State.pins { framedWith crcEngine32b [resetPins] with table := [(255, 7)] }).rst = true := by decide

theorem witness_EveryStepKeepsTheInvariant : (framedWith crcEngine16b [present (.byte 3)]).Inv ∧
    ∃ t, step (framedWith crcEngine16b [present (.byte 3)]) = .next t := ⟨framedWith_inv _ _, ⟨_, rfl⟩⟩

theorem witness_NoCommandWritesTheTable : ∃ t, exec (.byte 3) (framedWith crcEngine16b []) = .next t := ⟨_, rfl⟩

theorem witness_TableReads : (readyWith crcEngine8b [Pins.idle]).host = Pins.idle :: [] := rfl

theorem witness_TableNeverChanges : (readyWith crcEngine8b [present .init]).Inv ∧
    (readyWith crcEngine8b [present .init]).ready = true ∧ (readyWith crcEngine8b [present .init]).noReset 3 :=
  ⟨readyWith_inv _ _, rfl, by decide⟩

theorem witness_EveryWord : decode 0x2FF#10 = .byte 0xFF := by decide
theorem witness_DataBits : (0b11#2 : Op) ≠ 0b10#2 := by decide
theorem witness_DecodeOfEncode : Instr.wellFormed .final = true := rfl
theorem witness_TableWords : 1023 < 1024 ∧ 1024 ≤ 1024 ∧ 1024 < 65536 := by omega
theorem witness_Assembler : (∀ m ∈ [0, 255], m < 256) ∧ (∃ m ∈ [255, 256], 256 ≤ m) ∧
    (∀ c ∈ [' ', '~'], 0x20 ≤ c.toNat ∧ c.toNat ≤ 0x7E) ∧
    (∃ c ∈ ['a', '\n'], c.toNat < 0x20 ∨ 0x7E < c.toNat) :=
  ⟨by decide, ⟨256, by simp, by omega⟩,
    by
      intro c hc
      simp only [List.mem_cons, List.not_mem_nil, or_false] at hc
      rcases hc with rfl | rfl <;> decide,
    '\n', by simp, .inl (by decide)⟩

theorem witness_MsbFirst : crcEngine16b.variant ≠ .crc32 ∧ (Config.mk .crc4 0).poly = 0 := by decide
theorem witness_Reflected : crcEngine32b.variant = .crc32 ∧ (Config.mk .crc32 0).poly = 0 := by decide

theorem witness_FillEdge : (fillingWith crcEngine8b []).table.wf = true ∧ (fillingWith crcEngine8b []).pins.rst = false ∧
    (fillingWith crcEngine8b []).ready = false := by decide

/-- The 257th cycle presents INIT. -/
theorem witness_FillTakes256 :
    (fillingWith crcEngine8b (List.replicate 257 (present .init))).table.wf = true ∧
    (fillingWith crcEngine8b (List.replicate 257 (present .init))).noReset 257 ∧
    (fillingWith crcEngine8b (List.replicate 257 (present .init))).host[256]? = some (present .init) ∧
    (present .init).cmdValid = true := by
  refine ⟨rfl, fun p hp => ?_, rfl, rfl⟩
  have := List.eq_of_mem_replicate (List.mem_of_mem_take hp)
  rw [this]; rfl

/-- One cycle for each op. -/
theorem witness_StepRuns : ∀ i ∈ [Instr.nop, .init, .byte 0x80, .final],
    (readyWith crcEngine8b [present i]).pins.rst = false ∧ (readyWith crcEngine8b [present i]).ready = true ∧
    (readyWith crcEngine8b [present i]).pins.cmdValid = true ∧
    decode (readyWith crcEngine8b [present i]).pins.word = i := by decide

theorem witness_Unaccepted : (readyWith crcEngine8b []).pins.cmdValid = false ∧
    (fillingWith crcEngine8b [present .final]).cmdReady (present .final) = false ∧
    (readyWith crcEngine8b [resetPins]).cmdReady resetPins = false := by decide

theorem witness_InitStartsAFrame : (readyWith crcEngine16b []).Inv ∧ (readyWith crcEngine16b []).ready = true ∧
    (readyWith crcEngine16b []).err = false ∧ ∃ t, exec .init (readyWith crcEngine16b []) = .next t :=
  ⟨readyWith_inv _ _, rfl, rfl, ⟨_, rfl⟩⟩

theorem witness_ByteForms : (framedWith crcEngine4b []).inFrame = true ∧
    (framedWith crcEngine4b []).cfg.variant = .crc4 ∧ (framedWith crcEngine8b []).cfg.variant = .crc8 ∧
    (framedWith crcEngine16b []).cfg.variant = .crc16 ∧ (framedWith crcEngine32b []).cfg.variant = .crc32 ∧
    (0x31#8).toNat = (0x31 : Byte).toNat := by decide

theorem witness_Final_and_ProtocolError : (framedWith crcEngine32b []).inFrame = true ∧
    (readyWith crcEngine32b []).inFrame = false := by decide

/-- A frame with a leading idle cycle and a NOP inside. -/
def spacedFrame : List Pins := [Pins.idle, present .init, present (.byte 0x41), present .nop, present .final]

theorem spacedFrame_isFrame : IsFrameOf [0x41] spacedFrame := by unfold IsFrameOf; decide

theorem emptyFrame_isFrame : IsFrameOf [] [present .init, present .nop, present .final] := by unfold IsFrameOf; decide

theorem witness_AFrame : (framedWith crcEngine32b (spacedFrame ++ [resetPins])).Inv ∧
    (framedWith crcEngine32b (spacedFrame ++ [resetPins])).ready = true ∧ IsFrameOf [0x41] spacedFrame :=
  ⟨framedWith_inv _ _, rfl, spacedFrame_isFrame⟩

theorem witness_EmptyFrame : (readyWith crcEngine4b ([present .init, present .nop, present .final] ++ [])).ready = true ∧
    IsFrameOf [] [present .init, present .nop, present .final] := ⟨rfl, emptyFrame_isFrame⟩

theorem witness_FramesDoNotAccumulate : (framedWith crcEngine8b spacedFrame).Inv ∧
    (readyWith crcEngine8b (presentAll [.init, .byte 0x41, .final])).Inv ∧
    IsFrameOf [0x41] (presentAll [.init, .byte 0x41, .final]) :=
  ⟨framedWith_inv _ _, readyWith_inv _ _, by unfold IsFrameOf; decide⟩

theorem witness_ErrorFlags : ∃ t, run 1 (readyWith crcEngine8b [present .final]) = .next t := ⟨_, rfl⟩

theorem witness_ErrorsStick :
    State.err { readyWith crcEngine8b [present .final] with err := true, errCause := 1 } = true ∧
    (readyWith crcEngine8b [present .final]).noReset 2 ∧ (readyWith crcEngine8b [resetPins]).pins.rst = true := by decide

theorem witness_ResetEdge : (framedWith crcEngine8b [resetPins]).pins.rst = true := by decide

/-- Two reset cycles, then one without. -/
theorem witness_HeldReset : 1 + 1 ≤ (readyWith crcEngine8b [resetPins, resetPins, Pins.idle]).host.length ∧
    (∀ p ∈ (readyWith crcEngine8b [resetPins, resetPins, Pins.idle]).host.take (1 + 1), p.rst = true) ∧
    Pins.idle.rst = false := by decide

theorem witness_FinalShows : (framedWith crcEngine8b [present .final]).accepts .final ∧
    (framedWith crcEngine8b [present .final]).inFrame = true := by decide

theorem witness_StaleResult : (readyWith crcEngine8b [present .init, present (.byte 1)]).accepts .init ∧
    ∀ p ∈ (readyWith crcEngine8b [present .init, present (.byte 1)]).host.take (1 + 1),
      p.rst = false ∧ (p.cmdValid = true → decode p.word ≠ .final) := by decide

theorem witness_WholeRun : [resetPins] ≠ [] ∧ (∀ p ∈ [resetPins], p.rst = true) ∧
    (List.replicate 256 Pins.idle).length = 256 ∧ (∀ p ∈ List.replicate 256 Pins.idle, p.rst = false) ∧
    IsFrameOf [0x41] spacedFrame :=
  ⟨by decide, by decide, List.length_replicate .., fun p hp => by rw [List.eq_of_mem_replicate hp]; rfl,
    spacedFrame_isFrame⟩

theorem witness_WithFetchWord : 0x3FF < 1024 := by omega

end Sys2Proof.Tests
end

section
/-! SUPPORT. The variant table (00_scope.md R3). -/

namespace Sys2Proof

/-- SEED is ones_SW (R3, R12), as a number. -/
@[simp] theorem Config.seed_toNat (c : Config) : c.seed.toNat = 2 ^ c.sw - 1 :=
  BitVec.toNat_allOnes

/-- Settles O1: each variant's row is its constants' own lemmas, with SEED computed from the storage width. -/
theorem variantTableFixesEveryConstant : Obligations.VariantTableFixesEveryConstant := by
  unfold Obligations.VariantTableFixesEveryConstant
  refine ⟨fun c => ⟨?crc4, ?crc8, ?crc16, ?crc32⟩, rfl, rfl, rfl, rfl⟩
  case crc4 => intro hv; simp [Config.w, Config.sw, hv]
  case crc8 => intro hv; simp [Config.w, Config.sw, hv]
  case crc16 => intro hv; simp [Config.w, Config.sw, hv]
  case crc32 => intro hv; simp [Config.w, Config.sw, hv]

end Sys2Proof
end

section
/-! SUPPORT. What the widths of R3 say of the registers. -/

namespace Sys2Proof

theorem Config.toNat_lt_of_crc32 {c : Config} (hv : c.variant = .crc32) (r : BitVec c.sw) : r.toNat < 2 ^ 32 := by
  simpa [Config.sw, hv] using r.isLt

/-- Only CRC4 stores more bits than its result has (R3). -/
theorem Config.sw_eq_w {c : Config} (h : c.variant ≠ .crc4) : c.sw = c.w := by
  obtain ⟨v, p⟩ := c
  cases v with
  | crc4 => exact absurd rfl h
  | crc8 | crc16 | crc32 => rfl

end Sys2Proof
end

section
/-! SUPPORT. One rising edge with its command named, as a relation: the four cases of R170, the accepting edge split by
the command it accepts and by IN_FRAME (41_commands.md R122 to R129). `step_eq_next_iff` ties it to the step; the proofs
about what an edge writes split along it. -/

namespace Sys2Proof.Machine

/-! ### Each command and each case of an edge, one equation each -/

theorem exec_nop (s : State) : exec .nop s = .next s := rfl

theorem exec_init (s : State) : exec .init s = .next (s.setReg s.cfg.seed).openFrame := rfl

theorem exec_byte_inFrame {s : State} (hf : s.inFrame = true) (b : Byte) :
    exec (.byte b) s = .next (s.setReg (upd s.cfg s.table.read s.reg b)) := by
  simp [exec, execByte, hf]

theorem exec_byte_outsideFrame {s : State} (hf : s.inFrame = false) (b : Byte) :
    exec (.byte b) s = .next (s.raiseProtocolError .byteOutsideFrame) := by
  simp [exec, execByte, hf]

theorem exec_final_inFrame {s : State} (hf : s.inFrame = true) :
    exec .final s = .next (s.setResult (fin s.cfg s.reg)).closeFrame := by
  simp [exec, execFinal, hf]

theorem exec_final_outsideFrame {s : State} (hf : s.inFrame = false) :
    exec .final s = .next (s.raiseProtocolError .finalOutsideFrame) := by
  simp [exec, execFinal, hf]

theorem step_of_rst {s : State} (hr : s.pins.rst = true) : step s = .next s.resetEdge.nextCycle := by
  simp [step, State.edgeCase, hr]

theorem step_of_filling {s : State} (hr : s.pins.rst = false) (hy : s.ready = false) :
    step s = .next s.fillEdge.nextCycle := by
  simp [step, State.edgeCase, hr, hy]

theorem step_of_idle {s : State} (hr : s.pins.rst = false) (hy : s.ready = true) (hv : s.pins.cmdValid = false) :
    step s = .next s.nextCycle := by
  simp [step, State.edgeCase, hr, hy, hv]

theorem step_of_accepts {s : State} {i : Instr} (h : s.accepts i) : step s = thenNextCycle (exec i s) := by
  obtain ⟨hr, hy, hv, hi⟩ := State.accepts_iff.mp h
  simp [step, State.edgeCase, hr, hy, hv, hi]

/-- An accepting edge answers what its command does. -/
theorem step_of_accepts_exec {s u : State} {i : Instr} (h : s.accepts i) (hu : exec i s = .next u) :
    step s = .next u.nextCycle := by
  rw [step_of_accepts h, hu, thenNextCycle_next]

/-! ### Which command an edge accepts -/

theorem State.rst_of_accepts {s : State} {i : Instr} (h : s.accepts i) : s.pins.rst = false :=
  (State.accepts_iff.mp h).1

theorem State.ready_of_accepts {s : State} {i : Instr} (h : s.accepts i) : s.ready = true :=
  (State.accepts_iff.mp h).2.1

/-- An edge accepts at most one command. -/
theorem State.accepts_iff_eq {s : State} {i : Instr} (h : s.accepts i) (j : Instr) : s.accepts j ↔ i = j := by
  obtain ⟨hr, hy, hv, rfl⟩ := State.accepts_iff.mp h
  simp only [State.accepts_iff, hr, hy, hv, true_and]

theorem State.not_accepts_of_rst {s : State} (hr : s.pins.rst = true) (i : Instr) : ¬ s.accepts i :=
  fun h => by simp [State.rst_of_accepts h] at hr

theorem State.not_accepts_of_filling {s : State} (hy : s.ready = false) (i : Instr) : ¬ s.accepts i :=
  fun h => by simp [State.ready_of_accepts h] at hy

theorem State.not_accepts_of_idle {s : State} (hv : s.pins.cmdValid = false) (i : Instr) : ¬ s.accepts i := by
  simp [State.accepts_iff, hv]

/-! ### The edge relation -/

/-- A rising edge leads from `s` to the state given: R170's cases, with the command that an accepting edge runs. -/
inductive Edge (s : State) : State → Prop
  | reset (hr : s.pins.rst = true) : Edge s s.resetEdge.nextCycle
  | fill (hr : s.pins.rst = false) (hy : s.ready = false) : Edge s s.fillEdge.nextCycle
  | idle (hr : s.pins.rst = false) (hy : s.ready = true) (hv : s.pins.cmdValid = false) : Edge s s.nextCycle
  | nop (ha : s.accepts .nop) : Edge s s.nextCycle
  | init (ha : s.accepts .init) : Edge s (s.setReg s.cfg.seed).openFrame.nextCycle
  | byteInFrame (b : Byte) (ha : s.accepts (.byte b)) (hf : s.inFrame = true) :
    Edge s (s.setReg (upd s.cfg s.table.read s.reg b)).nextCycle
  | byteOutsideFrame (b : Byte) (ha : s.accepts (.byte b)) (hf : s.inFrame = false) :
    Edge s (s.raiseProtocolError .byteOutsideFrame).nextCycle
  | finalInFrame (ha : s.accepts .final) (hf : s.inFrame = true) :
    Edge s (s.setResult (fin s.cfg s.reg)).closeFrame.nextCycle
  | finalOutsideFrame (ha : s.accepts .final) (hf : s.inFrame = false) :
    Edge s (s.raiseProtocolError .finalOutsideFrame).nextCycle

theorem Edge.of_step {s t : State} (h : step s = .next t) : Edge s t := by
  rcases step_cases h with ⟨hr, rfl⟩ | ⟨hr, hy, rfl⟩ | ⟨hr, hy, hv, u, hu, rfl⟩ | ⟨hr, hy, hv, rfl⟩
  · exact .reset hr
  · exact .fill hr hy
  · have ha {i : Instr} (hi : decode s.pins.word = i) : s.accepts i := State.accepts_iff.mpr ⟨hr, hy, hv, hi⟩
    rcases exec_cases hu with ⟨hi, rfl⟩ | ⟨hi, rfl⟩ | ⟨b, hi, hf, rfl⟩ | ⟨b, hi, hf, rfl⟩ | ⟨hi, hf, rfl⟩ | ⟨hi, hf, rfl⟩
    · exact .nop (ha hi)
    · exact .init (ha hi)
    · exact .byteInFrame b (ha hi) hf
    · exact .byteOutsideFrame b (ha hi) hf
    · exact .finalInFrame (ha hi) hf
    · exact .finalOutsideFrame (ha hi) hf
  · exact .idle hr hy hv

/-- The edge relation is the step. -/
theorem step_eq_next_iff {s t : State} : step s = .next t ↔ Edge s t := by
  refine ⟨Edge.of_step, fun h => ?_⟩
  cases h with
  | reset hr => exact step_of_rst hr
  | fill hr hy => exact step_of_filling hr hy
  | idle hr hy hv => exact step_of_idle hr hy hv
  | nop ha => exact step_of_accepts_exec ha (exec_nop s)
  | init ha => exact step_of_accepts_exec ha (exec_init s)
  | byteInFrame b ha hf => exact step_of_accepts_exec ha (exec_byte_inFrame hf b)
  | byteOutsideFrame b ha hf => exact step_of_accepts_exec ha (exec_byte_outsideFrame hf b)
  | finalInFrame ha hf => exact step_of_accepts_exec ha (exec_final_inFrame hf)
  | finalOutsideFrame ha hf => exact step_of_accepts_exec ha (exec_final_outsideFrame hf)

/-! ### Every edge and every run goes on -/

theorem exec_answers (i : Instr) (s : State) : ∃ u, exec i s = .next u := by
  cases i with
  | nop => exact ⟨_, exec_nop s⟩
  | init => exact ⟨_, exec_init s⟩
  | byte b =>
    cases hf : s.inFrame with
    | false => exact ⟨_, exec_byte_outsideFrame hf b⟩
    | true => exact ⟨_, exec_byte_inFrame hf b⟩
  | final =>
    cases hf : s.inFrame with
    | false => exact ⟨_, exec_final_outsideFrame hf⟩
    | true => exact ⟨_, exec_final_inFrame hf⟩

/-- No path of the step is a fault or a refusal (log 11). -/
theorem step_answers (s : State) : ∃ t, step s = .next t := by
  unfold step
  cases s.edgeCase s.pins with
  | reset => exact ⟨_, rfl⟩
  | fill => exact ⟨_, rfl⟩
  | execute w =>
    obtain ⟨u, hu⟩ := exec_answers (decode w) s
    exact ⟨u.nextCycle, by simp only [hu, thenNextCycle_next]⟩
  | idle => exact ⟨_, rfl⟩

theorem run_answers (k : Nat) (s : State) : ∃ t, run k s = .next t := by
  induction k generalizing s with
  | zero => exact ⟨s, run_zero s⟩
  | succ k ih =>
    obtain ⟨u, hu⟩ := step_answers s
    rw [run_succ hu]
    exact ih u

/-- A run of `k + 1` edges is an edge and a run of `k`. -/
theorem run_succ_eq_next {k : Nat} {s t : State} :
    run (k + 1) s = .next t ↔ ∃ u, step s = .next u ∧ run k u = .next t := by
  obtain ⟨u, hu⟩ := step_answers s
  simp [run_succ hu, hu]

/-- What every edge keeps, every run keeps. -/
theorem run_keeps {P : State → Prop} (hP : ∀ s t, P s → step s = .next t → P t) {k : Nat} {s t : State} (hs : P s)
    (h : run k s = .next t) : P t := by
  induction k generalizing s with
  | zero => injection h with h; exact h ▸ hs
  | succ k ih =>
    obtain ⟨u, hu, ht⟩ := run_succ_eq_next.mp h
    exact ih (hP s u hs hu) ht

end Sys2Proof.Machine
end

section
/-! SUPPORT. The invariant of R42: a reset edge establishes it, and every other edge keeps it. One lemma per named update
of State, in the phase in which an edge makes it. -/

namespace Sys2Proof.Machine

/-! ### The fill -/

/-- R110: with the entry of a fill edge written, the entries up to FILL_IDX are filled. -/
theorem State.Inv.read_write_fillIdx {s : State} (h : s.Inv) (hy : s.ready = false) {i : Byte} (hi : i ≤ s.fillIdx) :
    (s.table.write s.fillIdx (s.cfg.tg s.fillIdx)).read i = s.cfg.tg i := by
  rw [Memory.read_write h.tableCanonical]
  split
  · next he => rw [he]
  · next he => exact h.tablePartlyFilled hy i (by bv_omega)

theorem State.Inv.fillEdge {s : State} (h : s.Inv) (hy : s.ready = false) : s.fillEdge.Inv where
  tableCanonical := Memory.wf_write h.tableCanonical _ _
  openFrameHasNoResult := h.openFrameHasNoResult
  errIffCause := h.errIffCause
  causeNotReserved := h.causeNotReserved
  fillPhase := fun _ => h.fillPhase hy
  tableFilled := fun hready i => by
    have hlast : s.fillIdx = 255 := by simpa [hy] using hready
    exact h.read_write_fillIdx hy (by bv_omega)
  fillIdxRests := fun hready => by
    have hlast : s.fillIdx = 255 := by simpa [hy] using hready
    simp [hlast]
  tablePartlyFilled := fun hready i hi => by
    have hmore : s.fillIdx ≠ 255 := by simpa [hy] using hready
    rw [State.fillEdge_fillIdx] at hi
    exact h.read_write_fillIdx hy (by bv_omega)

/-! ### Reset -/

/-- R45, R171: a reset edge establishes the invariant from any state whose TABLE is canonical. -/
theorem State.resetEdge_inv {s : State} (hw : s.table.wf = true) : s.resetEdge.Inv where
  tableCanonical := hw
  openFrameHasNoResult := fun hf => by cases hf
  errIffCause := ⟨fun _ => rfl, fun _ => rfl⟩
  causeNotReserved := by simp
  fillPhase := fun _ => ⟨rfl, rfl, rfl, rfl, rfl⟩
  tableFilled := fun hready => by cases hready
  fillIdxRests := fun hready => by cases hready
  tablePartlyFilled := fun _ i hi => absurd hi BitVec.not_lt_zero

/-! ### The commands, which run in a READY state -/

theorem State.Inv.nextCycle {s : State} (h : s.Inv) : s.nextCycle.Inv := h.withHost _

theorem State.Inv.setReg {s : State} (h : s.Inv) (hy : s.ready = true) (v : BitVec s.cfg.sw) : (s.setReg v).Inv :=
  { h with fillPhase := by simp [hy] }

theorem State.Inv.setResult {s : State} (h : s.Inv) (hy : s.ready = true) (v : BitVec s.cfg.sw) : (s.setResult v).Inv :=
  { h with fillPhase := by simp [hy] }

theorem State.Inv.openFrame {s : State} (h : s.Inv) (hy : s.ready = true) : s.openFrame.Inv :=
  { h with
    openFrameHasNoResult := fun _ => rfl
    fillPhase := by simp [hy] }

theorem State.Inv.closeFrame {s : State} (h : s.Inv) (hy : s.ready = true) : s.closeFrame.Inv :=
  { h with
    openFrameHasNoResult := fun hf => by cases hf
    fillPhase := by simp [hy] }

theorem ProtocolError.code_ne_zero (e : ProtocolError) : e.code ≠ 0b00#2 := by cases e <;> decide

theorem ProtocolError.code_ne_reserved (e : ProtocolError) : e.code ≠ 0b11#2 := by cases e <;> decide

/-- R30, R151: the first cause is kept, and a new one is neither 00 nor 11. -/
theorem State.Inv.raiseProtocolError {s : State} (h : s.Inv) (hy : s.ready = true) (e : ProtocolError) :
    (s.raiseProtocolError e).Inv :=
  { h with
    errIffCause := by
      cases he : s.err with
      | false => simp [he, e.code_ne_zero]
      | true => simpa [he] using h.errIffCause
    causeNotReserved := by
      cases he : s.err with
      | false => simpa [he] using e.code_ne_reserved
      | true => simpa [he] using h.causeNotReserved
    fillPhase := by simp [hy] }

/-! ### Every edge -/

theorem Edge.inv {s t : State} (h : s.Inv) (he : Edge s t) : t.Inv := by
  cases he with
  | reset => exact (State.resetEdge_inv h.tableCanonical).nextCycle
  | fill _ hy => exact (h.fillEdge hy).nextCycle
  | idle => exact h.nextCycle
  | nop => exact h.nextCycle
  | init ha =>
    have hy := State.ready_of_accepts ha
    exact ((h.setReg hy s.cfg.seed).openFrame hy).nextCycle
  | byteInFrame b ha => exact (h.setReg (State.ready_of_accepts ha) _).nextCycle
  | byteOutsideFrame b ha => exact (h.raiseProtocolError (State.ready_of_accepts ha) _).nextCycle
  | finalInFrame ha =>
    have hy := State.ready_of_accepts ha
    exact ((h.setResult hy (fin s.cfg s.reg)).closeFrame hy).nextCycle
  | finalOutsideFrame ha => exact (h.raiseProtocolError (State.ready_of_accepts ha) _).nextCycle

/-- Settles O19: each edge is an update with a lemma of its own, in the phase in which the edge makes it. -/
theorem everyStepKeepsTheInvariant : Obligations.EveryStepKeepsTheInvariant :=
  fun _ _ h hstep => (Edge.of_step hstep).inv h

/-- Over any run the invariant stays (R42). -/
theorem State.Inv.of_run {k : Nat} {s t : State} (h : s.Inv) (hr : run k s = .next t) : t.Inv :=
  run_keeps everyStepKeepsTheInvariant h hr

/-- Settles O17: the reset edge establishes the invariant and every further edge keeps it; (f) is the width of the
registers. -/
theorem invariantsHoldAfterTheFirstResetEdge : Obligations.InvariantsHoldAfterTheFirstResetEdge := by
  intro s k hw hr
  obtain ⟨t, ht⟩ := run_answers k s.resetEdge.nextCycle
  have hinv : t.Inv := (State.resetEdge_inv hw).nextCycle.of_run ht
  exact ⟨t, (run_succ (step_of_rst hr) k).trans ht, hinv.openFrameHasNoResult, hinv.errIffCause, hinv.causeNotReserved,
    hinv.fillPhase, hinv.tableFilled, fun hv => ⟨Config.toNat_lt_of_crc32 hv _, Config.toNat_lt_of_crc32 hv _⟩⟩

/-- Settles O18: the state after reset is what a reset edge leaves of itself. -/
theorem invariantHoldsAtReset : Obligations.InvariantHoldsAtReset := by
  intro c
  have hinv (c : Config) : (State.resetOf c).Inv := State.resetEdge_inv (s := State.resetOf c) Memory.wf_nil
  exact ⟨hinv c, Config.seed_toNat c, rfl, by simp [State.resetOf, State.statusO, flagBit], rfl, hinv crcEngine32b⟩

end Sys2Proof.Machine
end

section
/-! SUPPORT. Elaboration of the generics (10_state.md R21, R22): what it accepts, and each of its two refusals. -/

namespace Sys2Proof

/-- A width names the variant that has it (R3, log 15). -/
theorem Variant.ofWidth_eq_some {n : Nat} {v : Variant} : Variant.ofWidth n = some v ↔ v.w = n := by
  constructor
  · intro h
    unfold Variant.ofWidth at h
    split at h
    · next hn => cases h; exact hn.symm
    · split at h
      · next hn => cases h; exact hn.symm
      · split at h
        · next hn => cases h; exact hn.symm
        · split at h
          · next hn => cases h; exact hn.symm
          · cases h
  · rintro rfl
    cases v <;> rfl

theorem Variant.exists_w_eq {n : Nat} : (∃ v : Variant, v.w = n) ↔ n = 4 ∨ n = 8 ∨ n = 16 ∨ n = 32 := by
  constructor
  · rintro ⟨v, rfl⟩
    cases v <;> simp
  · rintro (rfl | rfl | rfl | rfl)
    · exact ⟨.crc4, rfl⟩
    · exact ⟨.crc8, rfl⟩
    · exact ⟨.crc16, rfl⟩
    · exact ⟨.crc32, rfl⟩

theorem RawConfig.widthSupported_iff {r : RawConfig} :
    r.widthSupported = true ↔ r.width = 4 ∨ r.width = 8 ∨ r.width = 16 ∨ r.width = 32 := by
  simp [RawConfig.widthSupported, or_assoc]

/-- A width outside the set is refused whatever the polynomial. -/
theorem RawConfig.elaborate_of_unsupported {r : RawConfig} (h : ¬ ∃ v : Variant, v.w = r.width) :
    r.elaborate = .error .unsupportedVariant := by
  have hnone : Variant.ofWidth r.width = none :=
    Option.eq_none_iff_forall_ne_some.mpr fun v hv => h ⟨v, Variant.ofWidth_eq_some.mp hv⟩
  simp [RawConfig.elaborate, hnone]

/-- At the width of a variant only the polynomial's size counts. -/
theorem RawConfig.elaborate_of_w (v : Variant) (p : Nat) :
    RawConfig.elaborate ⟨v.w, p⟩ = if p < 2 ^ v.w then .ok ⟨v, BitVec.ofNat v.w p⟩ else .error .polyTooWide := by
  simp [RawConfig.elaborate, Variant.ofWidth_eq_some.mpr rfl]

/-- Everything elaboration can answer. -/
theorem RawConfig.elaborate_cases (r : RawConfig) :
    ((¬ ∃ v : Variant, v.w = r.width) ∧ r.elaborate = .error .unsupportedVariant) ∨
    ((∃ v : Variant, v.w = r.width) ∧ 2 ^ r.width ≤ r.poly ∧ r.elaborate = .error .polyTooWide) ∨
    ((∃ v : Variant, v.w = r.width) ∧ r.poly < 2 ^ r.width ∧
      ∃ c, r.elaborate = .ok c ∧ c.w = r.width ∧ c.poly.toNat = r.poly) := by
  by_cases hv : ∃ v : Variant, v.w = r.width
  · obtain ⟨w, p⟩ := r
    obtain ⟨v, rfl⟩ := hv
    rw [RawConfig.elaborate_of_w]
    by_cases hp : p < 2 ^ v.w
    · exact .inr (.inr ⟨⟨v, rfl⟩, hp, _, if_pos hp, rfl, Nat.mod_eq_of_lt hp⟩)
    · exact .inr (.inl ⟨⟨v, rfl⟩, Nat.le_of_not_lt hp, if_neg hp⟩)
  · exact .inl ⟨hv, RawConfig.elaborate_of_unsupported hv⟩

/-- Settles O2: each of the three cases of elaboration meets the four clauses. -/
theorem elaborationRefusesExactlyTheUnsupported : Obligations.ElaborationRefusesExactlyTheUnsupported := by
  intro r
  have hwf : r.wellFormed = true ↔ (∃ v : Variant, v.w = r.width) ∧ r.poly < 2 ^ r.width := by
    simp [RawConfig.wellFormed, RawConfig.widthSupported_iff, Variant.exists_w_eq, RawConfig.polyFits]
  rw [hwf, ← Variant.exists_w_eq]
  rcases r.elaborate_cases with ⟨hv, he⟩ | ⟨hv, hp, he⟩ | ⟨hv, hp, c, he, hw, hpoly⟩
  · simp [he, hv]
  · simp [he, hv, hp]
  · simp [he, hv, hp, hw, hpoly]

/-- Settles O3: a configuration's polynomial fits its width by its type. -/
theorem everyPolynomialOfTheWidthElaborates : Obligations.EveryPolynomialOfTheWidthElaborates := by
  intro c
  rw [RawConfig.elaborate_of_w, if_pos c.poly.isLt, BitVec.ofNat_toNat, BitVec.setWidth_eq]

end Sys2Proof
end

section
/-! SUPPORT. What the edges write to each state element (10_state.md R24 to R33): every proof is the split along the
cases of an edge. -/

namespace Sys2Proof.Machine

/-- No edge writes the generics (R33). -/
theorem Edge.cfg_eq {s t : State} (h : Edge s t) : t.cfg = s.cfg := by
  cases h <;> rfl

/-- Settles O4: every edge keeps the configuration, so a run does. -/
theorem configurationIsNeverWritten : Obligations.ConfigurationIsNeverWritten := by
  intro k s t h
  have hcfg : t.cfg = s.cfg :=
    run_keeps (P := fun u => u.cfg = s.cfg) (fun u v hu hv => (Edge.of_step hv).cfg_eq.trans hu) rfl h
  exact ⟨hcfg, by rw [State.polyO, hcfg]⟩

/-- Settles O5: only a reset edge, INIT and a BYTE in a frame are edges whose update names REG. -/
theorem regIsWrittenOnlyByInitByteAndReset : Obligations.RegIsWrittenOnlyByInitByteAndReset := by
  intro s t h hne
  cases Edge.of_step h with
  | reset hr => exact .inl ⟨hr, Config.seed_toNat s.cfg⟩
  | init ha => exact .inr (.inl ⟨ha, Config.seed_toNat s.cfg⟩)
  | byteInFrame b ha hf => exact .inr (.inr ⟨b, ha, hf, rfl⟩)
  | fill | idle | nop | byteOutsideFrame | finalInFrame | finalOutsideFrame => exact absurd rfl hne

/-- Settles O6: only a reset edge and a FINAL in a frame are edges whose update names RESULT. -/
theorem resultIsWrittenOnlyByFinalAndReset : Obligations.ResultIsWrittenOnlyByFinalAndReset := by
  intro s t h hne
  cases Edge.of_step h with
  | reset hr => exact .inl ⟨hr, BitVec.toNat_zero⟩
  | finalInFrame ha hf => exact .inr ⟨ha, hf, rfl⟩
  | fill | idle | nop | init | byteInFrame | byteOutsideFrame | finalOutsideFrame => exact absurd rfl hne

/-- Settles O7: in each case of an edge, which command it accepts (if any) decides both sides. -/
theorem resultValidIsSetAndClearedAsStated : Obligations.ResultValidIsSetAndClearedAsStated := by
  intro s t h
  cases Edge.of_step h with
  | reset hr => simp [State.not_accepts_of_rst hr, hr]
  | fill hr hy => simp [State.not_accepts_of_filling hy, hr]
  | idle hr hy hv => simp [State.not_accepts_of_idle hv, hr]
  | init ha => simp [State.accepts_iff_eq ha]
  | nop ha | byteInFrame _ ha | byteOutsideFrame _ ha => simp [State.accepts_iff_eq ha, State.rst_of_accepts ha]
  | finalInFrame ha hf => simp [State.accepts_iff_eq ha, hf]
  | finalOutsideFrame ha hf => simp [State.accepts_iff_eq ha, State.rst_of_accepts ha, hf]

/-- Settles O8: as for RESULT_VALID; a FINAL outside a frame finds IN_FRAME already 0. -/
theorem inFrameIsSetAndClearedAsStated : Obligations.InFrameIsSetAndClearedAsStated := by
  intro s t h
  cases Edge.of_step h with
  | reset hr => simp [State.not_accepts_of_rst hr, hr]
  | fill hr hy => simp [State.not_accepts_of_filling hy, hr]
  | idle hr hy hv => simp [State.not_accepts_of_idle hv, hr]
  | init ha => simp [State.accepts_iff_eq ha]
  | nop ha | byteInFrame _ ha | byteOutsideFrame _ ha => simp [State.accepts_iff_eq ha, State.rst_of_accepts ha]
  | finalInFrame ha hf => simp [State.accepts_iff_eq ha]
  | finalOutsideFrame ha hf => simp [State.accepts_iff_eq ha, hf]

/-- R151: only the first protocol error writes ERR_CAUSE, and it writes its own code. -/
theorem State.raiseProtocolError_errCause_ne {s : State} {e : ProtocolError}
    (h : (s.raiseProtocolError e).errCause ≠ s.errCause) :
    s.err = false ∧ (s.raiseProtocolError e).errCause = e.code := by
  cases he : s.err with
  | false => simp [he]
  | true => simp [he] at h

/-- Settles O9: outside reset only the two protocol errors are edges whose update names ERR_CAUSE. -/
theorem errCauseIsWrittenOnlyWhenErrRises : Obligations.ErrCauseIsWrittenOnlyWhenErrRises := by
  intro s t h
  refine ⟨fun hr => ?_, fun hr hne => ?_⟩
  · injection (step_of_rst hr).symm.trans h with ht
    exact ht ▸ rfl
  · cases Edge.of_step h with
    | byteOutsideFrame b ha hf =>
      obtain ⟨herr, hcause⟩ := State.raiseProtocolError_errCause_ne hne
      exact ⟨herr, rfl, hf, .inl ⟨b, ha, hcause⟩⟩
    | finalOutsideFrame ha hf =>
      obtain ⟨herr, hcause⟩ := State.raiseProtocolError_errCause_ne hne
      exact ⟨herr, rfl, hf, .inr ⟨ha, hcause⟩⟩
    | reset hr' => simp [hr] at hr'
    | fill | idle | nop | init | byteInFrame | finalInFrame => exact absurd rfl hne

/-- Settles O10: a fill edge counts; an edge of a READY state keeps both. -/
theorem readyAndFillIdxAreWrittenOnlyByResetAndFill : Obligations.ReadyAndFillIdxAreWrittenOnlyByResetAndFill := by
  intro s t h
  cases Edge.of_step h with
  | reset hr => simp [hr]
  | fill hr hy => simp [hr, hy, BitVec.toNat_add]
  | idle hr hy => simp [hr, hy]
  | nop ha | init ha | byteInFrame _ ha | byteOutsideFrame _ ha | finalInFrame ha | finalOutsideFrame ha =>
    simp [State.rst_of_accepts ha, State.ready_of_accepts ha]

/-! ### ERR and ERR_CAUSE are read by nothing (R29, R151) -/

/-- The state with other error flags. -/
def State.withErr (s : State) (e : Bool) (c : BitVec 2) : State := { s with err := e, errCause := c }

/-- From a state with other error flags every edge is the same case, and differs in the error flags alone. -/
theorem Edge.withErr {s t : State} (h : Edge s t) (e : Bool) (c : BitVec 2) :
    ∃ e' c', Edge (s.withErr e c) (t.withErr e' c') := by
  cases h with
  | reset hr => exact ⟨_, _, .reset (s := s.withErr e c) hr⟩
  | fill hr hy => exact ⟨_, _, .fill (s := s.withErr e c) hr hy⟩
  | idle hr hy hv => exact ⟨_, _, .idle (s := s.withErr e c) hr hy hv⟩
  | nop ha => exact ⟨_, _, .nop (s := s.withErr e c) ha⟩
  | init ha => exact ⟨_, _, .init (s := s.withErr e c) ha⟩
  | byteInFrame b ha hf => exact ⟨_, _, .byteInFrame (s := s.withErr e c) b ha hf⟩
  | byteOutsideFrame b ha hf => exact ⟨_, _, .byteOutsideFrame (s := s.withErr e c) b ha hf⟩
  | finalInFrame ha hf => exact ⟨_, _, .finalInFrame (s := s.withErr e c) ha hf⟩
  | finalOutsideFrame ha hf => exact ⟨_, _, .finalOutsideFrame (s := s.withErr e c) ha hf⟩

/-- Settles O48: by induction on the edges, each of which is the same case under any error flags. -/
theorem errorFlagsNeverChangeBehaviour : Obligations.ErrorFlagsNeverChangeBehaviour := by
  intro k
  induction k with
  | zero =>
    intro s t e c h
    injection h with h
    exact ⟨e, c, h ▸ rfl⟩
  | succ k ih =>
    intro s t e c h
    obtain ⟨u, hu, ht⟩ := run_succ_eq_next.mp h
    obtain ⟨e₁, c₁, hedge⟩ := (Edge.of_step hu).withErr e c
    obtain ⟨e', c', hrun⟩ := ih u t e₁ c₁ ht
    exact ⟨e', c', run_succ_eq_next.mpr ⟨_, step_eq_next_iff.mpr hedge, hrun⟩⟩

end Sys2Proof.Machine
end

section
/-! SUPPORT. The output ports (10_state.md R34 to R41) and the reading of status_o. -/

namespace Sys2Proof.Machine

/-- Settles O11: no port's definition reads REG or FILL_IDX, so both sides are the same outputs. -/
theorem regAndFillIdxShowOnNoPort : Obligations.RegAndFillIdxShowOnNoPort := fun _ _ _ _ => rfl

/-- Settles O12: cmd_ready is the conjunction of R35. -/
theorem cmdReadyIsReadyAndNotRst : Obligations.CmdReadyIsReadyAndNotRst := by
  intro s p
  simp [State.cmdReady]

theorem State.crcO_toNat (s : State) : s.crcO.toNat = s.result.toNat % 2 ^ s.cfg.w := BitVec.toNat_setWidth ..

/-- Settles O13: W is 4 for CRC4, and the width of RESULT for the others. -/
theorem checksumPortsShowResult : Obligations.ChecksumPortsShowResult := by
  intro s
  refine ⟨s.crcO_toNat, fun hv => ?_, fun hv => ?_, rfl, rfl⟩
  · rw [s.crcO_toNat, Config.w, hv]; rfl
  · rw [s.crcO_toNat, ← Config.sw_eq_w hv, Nat.mod_eq_of_lt s.result.isLt]

/-- Settles O14: the two branches of R40. -/
theorem tablePortShowsTheTableOnlyWhenReady : Obligations.TablePortShowsTheTableOnlyWhenReady := by
  intro s p
  constructor
  · intro hy; simp [State.tblDataO, hy]
  · intro hy; simp [State.tblDataO, hy]

/-- Every bit of the status word (R41). -/
theorem State.statusO_getLsbD (s : State) (i : Nat) : s.statusO.getLsbD i =
    if i < 1 then s.ready else if i < 2 then s.inFrame else if i < 3 then s.resultValid else if i < 4 then s.err
    else s.errCause.getLsbD (i - 4) := by
  simp only [State.statusO, flagBit, BitVec.getLsbD_append, BitVec.getLsbD_ofBool]
  grind

theorem State.statusO_ready (s : State) : s.statusO.getLsbD 0 = s.ready := s.statusO_getLsbD 0

theorem State.statusO_inFrame (s : State) : s.statusO.getLsbD 1 = s.inFrame := s.statusO_getLsbD 1

theorem State.statusO_resultValid (s : State) : s.statusO.getLsbD 2 = s.resultValid := s.statusO_getLsbD 2

theorem State.statusO_err (s : State) : s.statusO.getLsbD 3 = s.err := s.statusO_getLsbD 3

theorem State.statusO_errCause (s : State) : s.statusO.extractLsb' 4 2 = s.errCause := by
  apply BitVec.eq_of_getLsbD_eq
  intro i hi
  rw [BitVec.getLsbD_extractLsb', s.statusO_getLsbD, if_neg (by omega), if_neg (by omega), if_neg (by omega),
    if_neg (by omega), Nat.add_sub_cancel_left, decide_eq_true hi, Bool.true_and]

/-- Settles O15: one lemma per field. -/
theorem statusWordHoldsTheFiveFields : Obligations.StatusWordHoldsTheFiveFields :=
  fun s => ⟨s.statusO_ready, s.statusO_inFrame, s.statusO_resultValid, s.statusO_err, s.statusO_errCause⟩

/-! ### The cause of a status word (R30) -/

theorem decodeCause_zero : decodeCause 0b00#2 = some none := rfl

/-- The reader gives a protocol error for its own code. -/
theorem decodeCause_code (e : ProtocolError) : decodeCause e.code = some (some e) := by cases e <;> rfl

theorem decodeCause_reserved : decodeCause 0b11#2 = none := rfl

/-- The two codes that are neither 00 nor reserved are those of the protocol errors. -/
theorem exists_code_eq {code : BitVec 2} (h0 : code ≠ 0b00#2) (h3 : code ≠ 0b11#2) :
    ∃ e : ProtocolError, code = e.code := by
  have hcode : code = 0b01#2 ∨ code = 0b10#2 := by bv_omega
  rcases hcode with rfl | rfl
  · exact ⟨.byteOutsideFrame, rfl⟩
  · exact ⟨.finalOutsideFrame, rfl⟩

/-- What a host reads is the five fields, with the cause its code stands for. -/
theorem decodeStatus_statusO (s : State) : decodeStatus s.statusO =
    (decodeCause s.errCause).map fun cause => ⟨s.ready, s.inFrame, s.resultValid, s.err, cause⟩ := by
  simp only [decodeStatus, State.statusO_errCause, State.statusO_ready, State.statusO_inFrame,
    State.statusO_resultValid, State.statusO_err]
  cases decodeCause s.errCause <;> rfl

/-- Settles O16: the invariant leaves the code 00 with ERR = 0, or a protocol error's code with ERR = 1. -/
theorem statusOfAnInvariantStateIsReadable : Obligations.StatusOfAnInvariantStateIsReadable := by
  refine ⟨fun s h => ?_, fun s hcause => ?_⟩
  · rw [decodeStatus_statusO]
    cases he : s.err with
    | false => simp [h.errIffCause.mp he, decodeCause_zero]
    | true =>
      have hne : s.errCause ≠ 0b00#2 := fun hc => by simp [h.errIffCause.mpr hc] at he
      obtain ⟨e, hcode⟩ := exists_code_eq hne h.causeNotReserved
      simp [hcode, decodeCause_code]
  · rw [decodeStatus_statusO, hcause, decodeCause_reserved, Option.map_none]

end Sys2Proof.Machine
end

section
/-! SUPPORT. TABLE as memory (20_memory.md R61, R69): what no command writes, and what the step reads of the pins. -/

namespace Sys2Proof.Machine

/-- Settles O20: in each case of a command, the update names only REG, RESULT and the flags. -/
theorem noCommandWritesTheTable : Obligations.NoCommandWritesTheTable := by
  intro i s t h
  rcases exec_cases h with ⟨-, rfl⟩ | ⟨-, rfl⟩ | ⟨b, -, -, rfl⟩ | ⟨b, -, -, rfl⟩ | ⟨-, -, rfl⟩ | ⟨-, -, rfl⟩ <;>
    exact ⟨fun _ => rfl, rfl, rfl, rfl, rfl⟩

/-- The step reads the pins of the current cycle only to choose the case of the edge (R170), and passes on what the host
drives after it. -/
theorem step_withHost {s : State} {l : List Pins} (hcase : s.edgeCase (l.headD Pins.idle) = s.edgeCase s.pins)
    (htail : l.tail = s.host.tail) : step { s with host := l } = step s := by
  have hcase' : State.edgeCase { s with host := l } (State.pins { s with host := l }) = s.edgeCase s.pins := hcase
  unfold step
  rw [hcase']
  cases s.edgeCase s.pins with
  | reset => simp [State.resetEdge, State.nextCycle, htail]
  | fill => simp [State.fillEdge, State.nextCycle, htail]
  | execute w => exact thenNextCycle_exec_withHost (decode w) s htail
  | idle => simp [State.nextCycle, htail]

/-- Settles O21: the table address chooses no case of the edge, and the later cycles are the same. -/
theorem tableReadsHaveNoSideEffect : Obligations.TableReadsHaveNoSideEffect := by
  intro s p rest a hs
  have hp : s.pins = p := by rw [State.pins, hs, List.headD_cons]
  have hcase : s.edgeCase { p with tblAddr := a } = s.edgeCase s.pins := by rw [hp]; rfl
  exact step_withHost hcase (by rw [hs, List.tail_cons, List.tail_cons])

end Sys2Proof.Machine
end

section
/-! SUPPORT. The command encoding (30_encoding.md R80 to R88): a word is its two fields, what each op decodes to, and
the rows of the opcode map a word matches. -/

namespace Sys2Proof

/-! ### The two fields of a word (R80) -/

@[simp] theorem CmdWord.op_cmdWord (op : Op) (d : Byte) : CmdWord.op (cmdWord op d) = op :=
  BitVec.extractLsb'_append_eq_left

@[simp] theorem CmdWord.data_cmdWord (op : Op) (d : Byte) : CmdWord.data (cmdWord op d) = d :=
  BitVec.extractLsb'_append_eq_right

/-- A word is made of its op and its data. -/
theorem cmdWord_op_data (w : CmdWord) : cmdWord (CmdWord.op w) (CmdWord.data w) = w := by
  simp only [cmdWord, CmdWord.op, CmdWord.data]
  exact BitVec.extractLsb'_append_extractLsb'_eq_extractLsb' (by rfl) |>.trans BitVec.extractLsb'_eq_self

/-- The data of a word is word[7:0], as a number. -/
theorem CmdWord.data_toNat (w : CmdWord) : (CmdWord.data w).toNat = w.toNat % 256 := by
  simp [CmdWord.data]

/-- The four ops of R81 are all there are. -/
theorem op_cases (op : Op) : op = 0b00#2 ∨ op = 0b01#2 ∨ op = 0b10#2 ∨ op = 0b11#2 := by
  bv_omega

/-! ### What each op decodes to (R81, R82) -/

@[simp] theorem decode_cmdWord_nop (d : Byte) : decode (cmdWord 0b00#2 d) = .nop := by simp [decode]

@[simp] theorem decode_cmdWord_init (d : Byte) : decode (cmdWord 0b01#2 d) = .init := by simp [decode]

@[simp] theorem decode_cmdWord_byte (d : Byte) : decode (cmdWord 0b10#2 d) = .byte d := by simp [decode]

@[simp] theorem decode_cmdWord_final (d : Byte) : decode (cmdWord 0b11#2 d) = .final := by simp [decode]

/-! ### The encoder writes the two fields (R88) -/

theorem encode_nop : encode .nop = cmdWord 0b00#2 0 := rfl

theorem encode_init : encode .init = cmdWord 0b01#2 0 := rfl

/-- `0x200 | b` is op 10 with the operand as data. -/
theorem encode_byte (b : Byte) : encode (.byte b) = cmdWord 0b10#2 b := by
  rw [encode, cmdWord, BitVec.append_def]
  rfl

theorem encode_final : encode .final = cmdWord 0b11#2 0 := rfl

/-- Settles O24: an op other than 10 decodes to a command with no operand. -/
theorem dataBitsAreIgnoredExceptForByte : Obligations.DataBitsAreIgnoredExceptForByte := by
  refine ⟨fun op d d' hop => ?_, decode_cmdWord_byte⟩
  rcases op_cases op with rfl | rfl | rfl | rfl
  · rw [decode_cmdWord_nop, decode_cmdWord_nop]
  · rw [decode_cmdWord_init, decode_cmdWord_init]
  · exact absurd rfl hop
  · rw [decode_cmdWord_final, decode_cmdWord_final]

/-- Settles O25: each command is encoded with its own op, and BYTE with its operand as data. -/
theorem decodeOfEncodeIsTheCommand : Obligations.DecodeOfEncodeIsTheCommand := by
  intro i _
  cases i with
  | nop => rw [encode_nop, decode_cmdWord_nop]
  | init => rw [encode_init, decode_cmdWord_init]
  | byte b => rw [encode_byte, decode_cmdWord_byte]
  | final => rw [encode_final, decode_cmdWord_final]

theorem encode_decode_cmdWord (op : Op) (d : Byte) :
    encode (decode (cmdWord op d)) = if op = 0b10#2 then cmdWord op d else cmdWord op 0 := by
  rcases op_cases op with rfl | rfl | rfl | rfl
  · rw [decode_cmdWord_nop, encode_nop, if_neg (by decide)]
  · rw [decode_cmdWord_init, encode_init, if_neg (by decide)]
  · rw [decode_cmdWord_byte, encode_byte, if_pos rfl]
  · rw [decode_cmdWord_final, encode_final, if_neg (by decide)]

/-- Settles O26: a word is its two fields, and each op is encoded back with its canonical data. -/
theorem encodeOfDecodeIsTheCanonicalWord : Obligations.EncodeOfDecodeIsTheCanonicalWord := by
  intro w
  simpa only [cmdWord_op_data] using encode_decode_cmdWord (CmdWord.op w) (CmdWord.data w)

/-- Settles O27: each word is its op with the data written after it. -/
theorem wordsOfTheEncodingDecodeToTheirCommands : Obligations.WordsOfTheEncodingDecodeToTheirCommands :=
  ⟨decode_cmdWord_nop 0, decode_cmdWord_init 0, decode_cmdWord_byte 0x31, decode_cmdWord_final 0⟩

/-! ### The rows of the opcode map (R85) -/

/-- Every row masks word bits [9:8]. -/
theorem OpcodeRow.mask_of_mem {r : OpcodeRow} (hr : r ∈ opcodeRows) : r.mask = 0x300#10 := by
  revert r
  decide

/-- The mask of the opcode map keeps the op of a word and clears its data. -/
theorem CmdWord.and_mask (w : CmdWord) : w &&& 0x300#10 = cmdWord (CmdWord.op w) 0 := by
  calc w &&& 0x300#10
      = cmdWord (CmdWord.op w) (CmdWord.data w) &&& cmdWord (BitVec.allOnes 2) 0 := by rw [cmdWord_op_data]; rfl
    _ = cmdWord (CmdWord.op w &&& BitVec.allOnes 2) (CmdWord.data w &&& 0) := BitVec.and_append
    _ = cmdWord (CmdWord.op w) 0 := by
      rw [BitVec.and_allOnes]
      exact congrArg (cmdWord (CmdWord.op w)) BitVec.and_zero

/-- A row of the map sees only the op of a word. -/
theorem OpcodeRow.matches_congr_op {r : OpcodeRow} (hr : r ∈ opcodeRows) {w w' : CmdWord}
    (hop : CmdWord.op w = CmdWord.op w') : r.matches w = r.matches w' := by
  rw [OpcodeRow.matches, OpcodeRow.matches, mask_of_mem hr, w.and_mask, w'.and_mask, hop]

/-- Decoding and encoding again may change the data of a word, never its op. -/
theorem op_encode_decode (w : CmdWord) : CmdWord.op (encode (decode w)) = CmdWord.op w := by
  rw [encodeOfDecodeIsTheCanonicalWord w]
  split
  · rfl
  · exact CmdWord.op_cmdWord _ _

/-- Each command's encoding matches its own row of the map and no other. -/
theorem encodedInOwnRow (i : Instr) : Laws.EncodedInOwnRow.Statement i := by
  cases i with
  | nop => exact Laws.EncodedInOwnRow.nop
  | init => exact Laws.EncodedInOwnRow.init
  | byte b => exact Laws.EncodedInOwnRow.byte b
  | final => exact Laws.EncodedInOwnRow.final

/-- A word matches the row of the command it decodes to and no other. -/
theorem OpcodeRow.matches_iff {r : OpcodeRow} (hr : r ∈ opcodeRows) (w : CmdWord) :
    r.matches w = true ↔ r.mnemonic = (decode w).mnemonic := by
  rw [← matches_congr_op hr (op_encode_decode w)]
  exact encodedInOwnRow (decode w) r hr

/-- Each command has exactly one row of its mnemonic. -/
theorem opcodeRows_filter_mnemonic (i : Instr) :
    (opcodeRows.filter fun r => r.mnemonic = i.mnemonic).map (fun r => r.mnemonic) = [i.mnemonic] := by
  cases i <;> rfl

/-- Only op 10 decodes to a BYTE, and its operand is the data. -/
theorem data_of_decode_byte {w : CmdWord} {b : Byte} (h : decode w = .byte b) : b = CmdWord.data w := by
  rw [← cmdWord_op_data w] at h
  rcases op_cases (CmdWord.op w) with hop | hop | hop | hop
  · simp [hop] at h
  · simp [hop] at h
  · rw [hop, decode_cmdWord_byte, Instr.byte.injEq] at h
    exact h.symm
  · simp [hop] at h

/-- Settles O23: the rows a word matches are those of its command's mnemonic. -/
theorem everyWordMatchesExactlyOneRow : Obligations.EveryWordMatchesExactlyOneRow := by
  refine fun w => ⟨?_, fun b hb => ?_⟩
  · have hfilter : (opcodeRows.filter fun r => r.matches w) =
        opcodeRows.filter fun r => r.mnemonic = (decode w).mnemonic :=
      List.filter_congr fun r hr => by rw [Bool.eq_iff_iff, OpcodeRow.matches_iff hr, decide_eq_true_iff]
    rw [hfilter, opcodeRows_filter_mnemonic]
  · rw [data_of_decode_byte hb, CmdWord.data_toNat]

/-! ### Numbers read as words (R80, R87, log 8) -/

theorem decodeNumber_of_lt {n : Nat} (h : n < 1024) : decodeNumber n = .ok (decode (BitVec.ofNat 10 n)) := if_pos h

theorem decodeNumber_of_ge {n : Nat} (h : 1024 ≤ n) : decodeNumber n = .error .widerThanACommandWord :=
  if_neg (Nat.not_lt.mpr h)

/-- A number that fits in the row's bits is the number the row holds. -/
theorem tableNumber_of_lt {nbits w : Nat} (h : w < 2 ^ nbits) : tableNumber nbits w = w := Nat.mod_eq_of_lt h

/-- Settles O28: 16 bits hold the whole number, and R80's bound decides. -/
theorem tableWordsAreReadAsTheWordTheyAre : Obligations.TableWordsAreReadAsTheWordTheyAre := by
  refine fun w => ⟨fun hw => ?_, fun hge hw => ?_⟩
  · rw [decodeTableWord, tableNumber_of_lt (by omega), decodeNumber_of_lt hw]
  · rw [decodeTableWord, tableNumber_of_lt hw, decodeNumber_of_ge hge]

end Sys2Proof
end

section
/-! SUPPORT. The assembler's statements (30_encoding.md R88, R89): their checks, and what each answers. -/

namespace Sys2Proof.Asm

theorem Stmt.assemble_of_problem_none {st : Stmt} (h : st.problem = none) : st.assemble = .ok st.expand := by
  rw [assemble, h]

theorem Stmt.assemble_of_problem_some {st : Stmt} {e : Error} (h : st.problem = some e) : st.assemble = .error e := by
  rw [assemble, h]

theorem immInRange_iff {n : Nat} : immInRange n = true ↔ n < 256 := decide_eq_true_iff

theorem textCharacter_iff {c : Char} : textCharacter c = true ↔ 0x20 ≤ c.toNat ∧ c.toNat ≤ 0x7E := by
  simp [textCharacter]

/-- Some immediate out of range makes BYTES an error, whatever stands beside it (R88). -/
theorem Stmt.problem_bytes_outOfRange {ns : List Nat} (h : ∃ m ∈ ns, 256 ≤ m) :
    (Stmt.bytes ns).problem = some .immOutOfRange := by
  obtain ⟨m, hm, hge⟩ := h
  have hne : ns.isEmpty ≠ true := fun he => by simp [List.isEmpty_iff.mp he] at hm
  have hall : ns.all immInRange ≠ true := fun hall => by
    have hlt := immInRange_iff.mp (List.all_eq_true.mp hall m hm)
    omega
  rw [problem, if_neg hne, if_neg hall]

/-- A text of printable ASCII passes the check of R89. -/
theorem all_textCharacter {text : List Char} (h : ∀ c ∈ text, 0x20 ≤ c.toNat ∧ c.toNat ≤ 0x7E) :
    text.all textCharacter = true :=
  List.all_eq_true.mpr fun c hc => textCharacter_iff.mpr (h c hc)

/-- One character outside printable ASCII fails the check of R89. -/
theorem not_all_textCharacter {text : List Char} (h : ∃ c ∈ text, c.toNat < 0x20 ∨ 0x7E < c.toNat) :
    text.all textCharacter ≠ true := by
  obtain ⟨c, hc, hbad⟩ := h
  intro hall
  have hok := textCharacter_iff.mp (List.all_eq_true.mp hall c hc)
  omega

/-- Settles O29: each statement's check decides, and its expansion is the list stated. -/
theorem assemblerExpandsEachStatementAsStated : Obligations.AssemblerExpandsEachStatementAsStated := by
  refine ⟨rfl, rfl, rfl, fun n hn => ?byte, fun n hn => ?byteOutOfRange, fun n ns hall => ?bytes,
    fun ns hbad => Stmt.assemble_of_problem_some (Stmt.problem_bytes_outOfRange hbad),
    fun text hok => ?text, fun text hbad => ?badText⟩
  case byte => exact Stmt.assemble_of_problem_none (if_pos (immInRange_iff.mpr hn))
  case byteOutOfRange =>
    exact Stmt.assemble_of_problem_some (if_neg fun hin => Nat.not_lt.mpr hn (immInRange_iff.mp hin))
  case bytes =>
    exact Stmt.assemble_of_problem_none (if_pos (List.all_eq_true.mpr fun m hm => immInRange_iff.mpr (hall m hm)))
  case text =>
    have hall := all_textCharacter hok
    exact ⟨Stmt.assemble_of_problem_none (if_pos hall), Stmt.assemble_of_problem_none (if_pos hall)⟩
  case badText =>
    have hnot := not_all_textCharacter hbad
    exact ⟨Stmt.assemble_of_problem_some (if_neg hnot), Stmt.assemble_of_problem_some (if_neg hnot)⟩

end Sys2Proof.Asm
end

section
/-! SUPPORT. crc_table_gen (40_table_gen.md R100 to R107). An iteration whose tested bit is clear only shifts, so after
`k` iterations over `k` clear bits nothing but the shift is left; with linearity this gives the corner cases of TG and
the equivalence with bit-serial division. -/

namespace Sys2Proof

variable {n : Nat}

/-! ### Iterations that only shift -/

/-- The last of `k + 1` iterations, taken off the end. -/
theorem iterateBits_succ_last (f : BitVec n → BitVec n) (k : Nat) (r : BitVec n) :
    iterateBits f (k + 1) r = f (iterateBits f k r) := by
  induction k generalizing r with
  | zero => rfl
  | succ k ih => rw [iterateBits_succ, ih, iterateBits_succ]

theorem msbIteration_of_msb_clear {poly r : BitVec n} (h : r.msb = false) : msbIteration poly r = r <<< 1 := by
  simp [msbIteration, h]

theorem reflIteration_of_lsb_clear {poly r : BitVec n} (h : r.getLsbD 0 = false) : reflIteration poly r = r >>> 1 := by
  simp [reflIteration, h]

/-- Values that start at `r` and follow `f` are what the iterations go through. -/
theorem iterateBits_eq_of_follows {f : BitVec n → BitVec n} {r : BitVec n} {k : Nat} (g : Nat → BitVec n)
    (hzero : g 0 = r) (hsucc : ∀ i < k, f (g i) = g (i + 1)) : iterateBits f k r = g k := by
  induction k with
  | zero => exact hzero.symm
  | succ k ih =>
    rw [iterateBits_succ_last, ih fun i hi => hsucc i (Nat.lt_succ_of_lt hi), hsucc k (Nat.lt_succ_self k)]

theorem iterateBits_msb_of_clear (poly : BitVec n) {k : Nat} {r : BitVec n} (h : ∀ i < k, r.getMsbD i = false) :
    iterateBits (msbIteration poly) k r = r <<< k := by
  refine iterateBits_eq_of_follows (fun i => r <<< i) (BitVec.shiftLeft_zero r) fun i hi => ?_
  have hmsb : (r <<< i).msb = false := by
    rw [BitVec.msb_eq_getMsbD_zero, BitVec.getMsbD_shiftLeft, Nat.zero_add, h i hi]
  rw [msbIteration_of_msb_clear hmsb, BitVec.shiftLeft_add]

theorem iterateBits_refl_of_clear (poly : BitVec n) {k : Nat} {r : BitVec n} (h : ∀ i < k, r.getLsbD i = false) :
    iterateBits (reflIteration poly) k r = r >>> k := by
  refine iterateBits_eq_of_follows (fun i => r >>> i) (BitVec.ushiftRight_zero r) fun i hi => ?_
  have hlsb : (r >>> i).getLsbD 0 = false := by rw [BitVec.getLsbD_ushiftRight, Nat.add_zero, h i hi]
  rw [reflIteration_of_lsb_clear hlsb, BitVec.shiftRight_add]

theorem msbIteration_poly_zero (r : BitVec n) : msbIteration 0#n r = r <<< 1 := by simp [msbIteration]

theorem reflIteration_poly_zero (r : BitVec n) : reflIteration 0#n r = r >>> 1 := by simp [reflIteration]

/-- With POLY = 0 every iteration only shifts. -/
theorem iterateBits_msb_poly_zero (k : Nat) (r : BitVec n) : iterateBits (msbIteration 0#n) k r = r <<< k :=
  iterateBits_eq_of_follows (fun i => r <<< i) (BitVec.shiftLeft_zero r) fun i _ => by
    rw [msbIteration_poly_zero, BitVec.shiftLeft_add]

theorem iterateBits_refl_poly_zero (k : Nat) (r : BitVec n) : iterateBits (reflIteration 0#n) k r = r >>> k :=
  iterateBits_eq_of_follows (fun i => r >>> i) (BitVec.ushiftRight_zero r) fun i _ => by
    rw [reflIteration_poly_zero, BitVec.shiftRight_add]

/-! ### TG is linear (R105) -/

theorem tgMsb_xor (poly : BitVec n) (a b : Byte) : tgMsb poly (a ^^^ b) = tgMsb poly a ^^^ tgMsb poly b := by
  simp only [tgMsb, BitVec.setWidth_xor, BitVec.shiftLeft_xor_distrib]
  exact iterateBits_linear _ (msbIteration_xor poly) 8 _ _

theorem tgRefl_xor (poly : BitVec n) (a b : Byte) : tgRefl poly (a ^^^ b) = tgRefl poly a ^^^ tgRefl poly b := by
  simp only [tgRefl, BitVec.setWidth_xor]
  exact iterateBits_linear _ (reflIteration_xor poly) 8 _ _

theorem Config.tg_xor (c : Config) (a b : Byte) : c.tg (a ^^^ b) = c.tg a ^^^ c.tg b := by
  cases h : c.variant.tableAlgorithm with
  | msbFirst => simp only [tg_of_msbFirst h, tgMsb_xor]
  | reflected => simp only [tg_of_reflected h, tgRefl_xor]

/-- R102, R103: TG(0) = 0, since a linear function gives 0 at `0 = 0 XOR 0`. -/
theorem Config.tg_zero (c : Config) : c.tg 0 = 0 := by
  have h := c.tg_xor 0 0
  rwa [BitVec.xor_self, BitVec.xor_self] at h

/-- The low `k + 1` bits of a byte are the low `k`, with bit `k` added if it is set. -/
theorem lowBits_succ (x : Byte) (k : Nat) : (x.setWidth (k + 1)).setWidth 8 =
    if x.getLsbD k then (x.setWidth k).setWidth 8 ^^^ BitVec.ofNat 8 (2 ^ k) else (x.setWidth k).setWidth 8 := by
  have hpow : BitVec.ofNat 8 (2 ^ k) = BitVec.twoPow 8 k := by
    rw [← BitVec.toNat_inj, BitVec.toNat_ofNat, BitVec.toNat_twoPow]
  rw [hpow]
  apply BitVec.eq_of_getLsbD_eq
  intro i hi
  split
  · simp only [BitVec.getLsbD_xor, BitVec.getLsbD_setWidth, BitVec.getLsbD_twoPow]
    grind
  · simp only [BitVec.getLsbD_setWidth]
    grind

/-- TG of the low `k` bits of an index is the XOR of TG over the powers of two among them. -/
theorem Config.tg_lowBits (c : Config) (x : Byte) (k : Nat) : c.tg ((x.setWidth k).setWidth 8) =
    (List.range k).foldl (fun v j => if x.getLsbD j then v ^^^ c.tg (BitVec.ofNat 8 (2 ^ j)) else v) 0 := by
  induction k with
  | zero =>
    have hnone : (x.setWidth 0).setWidth 8 = 0 := by ext i; simp
    rw [hnone, c.tg_zero]; rfl
  | succ k ih =>
    rw [List.range_succ, List.foldl_append, ← ih, lowBits_succ, apply_ite c.tg, c.tg_xor]
    rfl

/-- Settles O32: each iteration is linear, and a byte is its low 8 bits. -/
theorem tableGeneratorIsLinear : Obligations.TableGeneratorIsLinear := by
  refine fun c => ⟨c.tg_xor, fun x => ?_⟩
  rw [← c.tg_lowBits, BitVec.setWidth_eq, BitVec.setWidth_eq]

/-! ### Bit-serial division one byte at a time (R107) -/

/-- A register is its top byte and, below it, the bits that a shift by 8 keeps. -/
theorem topByte_xor_rest (hn : 8 ≤ n) (r : BitVec n) :
    r = ((r >>> (n - 8)).setWidth 8).setWidth n <<< (n - 8) ^^^ (r <<< 8) >>> 8 := by
  apply BitVec.eq_of_getLsbD_eq
  intro i hi
  simp only [BitVec.getLsbD_xor, BitVec.getLsbD_shiftLeft, BitVec.getLsbD_ushiftRight, BitVec.getLsbD_setWidth]
  grind

/-- A register is its low byte and, above it, the bits that a shift by 8 keeps. -/
theorem lowByte_xor_rest (r : BitVec n) : r = (r.setWidth 8).setWidth n ^^^ (r >>> 8) <<< 8 := by
  apply BitVec.eq_of_getLsbD_eq
  intro i hi
  simp only [BitVec.getLsbD_xor, BitVec.getLsbD_shiftLeft, BitVec.getLsbD_ushiftRight, BitVec.getLsbD_setWidth]
  grind

/-- Eight MSB-first iterations take the top byte through TG and shift the rest up. -/
theorem iterateBits_msb_eq_tgMsb (hn : 8 ≤ n) (poly r : BitVec n) :
    iterateBits (msbIteration poly) 8 r = tgMsb poly ((r >>> (n - 8)).setWidth 8) ^^^ r <<< 8 := by
  have hclear : ∀ i < 8, ((r <<< 8) >>> 8).getMsbD i = false := fun i hi => by
    rw [BitVec.getMsbD_ushiftRight, decide_eq_true hi]; simp
  have hshift : ((r <<< 8) >>> 8) <<< 8 = r <<< 8 := by
    apply BitVec.eq_of_getLsbD_eq
    intro i hi
    simp only [BitVec.getLsbD_shiftLeft, BitVec.getLsbD_ushiftRight]
    grind
  conv => lhs; rw [topByte_xor_rest hn r]
  rw [iterateBits_linear _ (msbIteration_xor poly), iterateBits_msb_of_clear poly hclear, hshift, tgMsb]

/-- Eight reflected iterations take the low byte through TG and shift the rest down. -/
theorem iterateBits_refl_eq_tgRefl (poly r : BitVec n) :
    iterateBits (reflIteration poly) 8 r = tgRefl poly (r.setWidth 8) ^^^ r >>> 8 := by
  have hclear : ∀ i < 8, ((r >>> 8) <<< 8).getLsbD i = false := fun i hi => by
    rw [BitVec.getLsbD_shiftLeft, decide_eq_true hi]; simp
  have hshift : ((r >>> 8) <<< 8) >>> 8 = r >>> 8 := by
    apply BitVec.eq_of_getLsbD_eq
    intro i hi
    simp only [BitVec.getLsbD_shiftLeft, BitVec.getLsbD_ushiftRight]
    grind
  conv => lhs; rw [lowByte_xor_rest r]
  rw [iterateBits_linear _ (reflIteration_xor poly), iterateBits_refl_of_clear poly hclear, hshift, tgRefl]

/-- With a byte added at the top, the index is the register's top byte XOR that byte. -/
theorem topByte_xor_byte (hn : 8 ≤ n) (r : BitVec n) (b : Byte) :
    ((r ^^^ b.setWidth n <<< (n - 8)) >>> (n - 8)).setWidth 8 = (r >>> (n - 8)).setWidth 8 ^^^ b := by
  apply BitVec.eq_of_getLsbD_eq
  intro i hi
  simp only [BitVec.getLsbD_xor, BitVec.getLsbD_shiftLeft, BitVec.getLsbD_ushiftRight, BitVec.getLsbD_setWidth]
  grind

theorem iterateBits_msb_xor_byte (hn : 8 ≤ n) (poly r : BitVec n) (b : Byte) :
    iterateBits (msbIteration poly) 8 (r ^^^ b.setWidth n <<< (n - 8)) =
      r <<< 8 ^^^ tgMsb poly ((r >>> (n - 8)).setWidth 8 ^^^ b) := by
  have hout : (b.setWidth n <<< (n - 8)) <<< 8 = 0#n := by
    rw [← BitVec.shiftLeft_add, BitVec.shiftLeft_eq_zero (by omega)]
  rw [iterateBits_msb_eq_tgMsb hn, topByte_xor_byte hn, BitVec.shiftLeft_xor_distrib, hout, BitVec.xor_zero,
    BitVec.xor_comm]

/-- In a one-byte register nothing lies below the top byte. -/
theorem iterateBits_msb_xor_byte_oneByte (poly r : BitVec 8) (b : Byte) :
    iterateBits (msbIteration poly) 8 (r ^^^ b.setWidth 8 <<< (8 - 8)) = tgMsb poly (r.setWidth 8 ^^^ b) := by
  rw [iterateBits_msb_xor_byte (Nat.le_refl 8), BitVec.shiftLeft_eq_zero (Nat.le_refl 8), BitVec.zero_xor, Nat.sub_self,
    BitVec.ushiftRight_zero]

theorem iterateBits_refl_xor_byte (poly r : BitVec n) (b : Byte) :
    iterateBits (reflIteration poly) 8 (r ^^^ b.setWidth n) =
      tgRefl poly ((r ^^^ b.setWidth n).setWidth 8) ^^^ r >>> 8 := by
  have hout : b.setWidth n >>> 8 = 0#n := by ext i; simp
  rw [iterateBits_refl_eq_tgRefl, BitVec.ushiftRight_xor_distrib, hout, BitVec.xor_zero]

end Sys2Proof

namespace Sys2Proof.Machine

/-- Each update form, over the table that TG gives, divides one byte bit by bit. -/
theorem upd_tg_eq_serialUpd (c : Config) (r : BitVec c.sw) (b : Byte) : upd c c.tg r b = serialUpd c r b := by
  obtain ⟨v, p⟩ := c
  cases v with
  | crc4 => exact (iterateBits_msb_xor_byte_oneByte (Config.polySW ⟨.crc4, p⟩) r b).symm
  | crc8 => exact (iterateBits_msb_xor_byte_oneByte (Config.polySW ⟨.crc8, p⟩) r b).symm
  | crc16 => exact (iterateBits_msb_xor_byte (n := 16) (by decide) (Config.polySW ⟨.crc16, p⟩) r b).symm
  | crc32 => exact (iterateBits_refl_xor_byte (n := 32) (Config.polySW ⟨.crc32, p⟩) r b).symm

/-- Settles O33: the two updates are the same function of the register and the byte, so they fold alike. -/
theorem tableDrivenChecksumIsBitSerialDivision : Obligations.TableDrivenChecksumIsBitSerialDivision := by
  intro c bytes
  have hupd : upd c c.tg = serialUpd c := funext fun r => funext fun b => upd_tg_eq_serialUpd c r b
  rw [streamCrc, serialCrc, hupd]

end Sys2Proof.Machine
end

section
/-! SUPPORT. TG against the pseudocode on natural numbers (R102, R103), and its corner cases. -/

namespace Sys2Proof

open Sys2Proof.Machine

variable {n : Nat}

/-! ### On numbers -/

/-- Where one iteration is a function on numbers, so is any number of them. -/
theorem iterateBits_toNat {f : BitVec n → BitVec n} {g : Nat → Nat} (hfg : ∀ r, (f r).toNat = g r.toNat) (k : Nat)
    (r : BitVec n) : (iterateBits f k r).toNat = iterateNat g k r.toNat := by
  induction k generalizing r with
  | zero => rfl
  | succ k ih => rw [iterateBits_succ, ih, hfg]; rfl

theorem msbIteration_toNat (poly r : BitVec n) : (msbIteration poly r).toNat =
    if 2 ^ (n - 1) ≤ r.toNat then (2 * r.toNat % 2 ^ n) ^^^ poly.toNat else 2 * r.toNat % 2 ^ n := by
  have hshift : (r <<< 1).toNat = 2 * r.toNat % 2 ^ n := by
    rw [BitVec.toNat_shiftLeft, Nat.shiftLeft_eq, Nat.pow_one, Nat.mul_comm]
  simp only [msbIteration, BitVec.msb_eq_decide, decide_eq_true_eq]
  split
  · rw [BitVec.toNat_xor, hshift]
  · exact hshift

theorem reflIteration_toNat (poly r : BitVec n) : (reflIteration poly r).toNat =
    if r.toNat % 2 = 1 then (r.toNat / 2) ^^^ poly.toNat else r.toNat / 2 := by
  have hshift : (r >>> 1).toNat = r.toNat / 2 := by
    rw [BitVec.toNat_ushiftRight, Nat.shiftRight_eq_div_pow, Nat.pow_one]
  have hbit : r.getLsbD 0 = decide (r.toNat % 2 = 1) := Nat.testBit_zero r.toNat
  simp only [reflIteration, hbit, decide_eq_true_eq]
  split
  · rw [BitVec.toNat_xor, hshift]
  · exact hshift

theorem tgMsb_toNat (hn : 8 ≤ n) (poly : BitVec n) (x : Byte) :
    (tgMsb poly x).toNat = tgMsbNat n poly.toNat x.toNat := by
  have hseed : (x.setWidth n <<< (n - 8)).toNat = x.toNat * 2 ^ (n - 8) % 2 ^ n := by
    rw [BitVec.toNat_shiftLeft, BitVec.toNat_setWidth_of_le hn, Nat.shiftLeft_eq]
  rw [tgMsb, tgMsbNat, ← hseed]
  exact iterateBits_toNat (msbIteration_toNat poly) 8 _

theorem tgRefl_toNat (hn : 8 ≤ n) (poly : BitVec n) (x : Byte) :
    (tgRefl poly x).toNat = tgReflNat poly.toNat x.toNat := by
  rw [tgRefl, tgReflNat, ← BitVec.toNat_setWidth_of_le hn]
  exact iterateBits_toNat (reflIteration_toNat poly) 8 _

theorem Config.polySW_toNat (c : Config) : c.polySW.toNat = c.poly.toNat :=
  BitVec.toNat_setWidth_of_le c.w_le_sw

/-! ### Corner cases -/

/-- One bit of a byte is the same bit of any wider register. -/
theorem setWidth_twoPow_byte (hn : 8 ≤ n) {k : Nat} (hk : k < 8) :
    (BitVec.twoPow 8 k).setWidth n = BitVec.twoPow n k := by
  apply BitVec.eq_of_getLsbD_eq
  intro i hi
  rw [BitVec.getLsbD_setWidth, BitVec.getLsbD_twoPow, BitVec.getLsbD_twoPow]
  grind

/-- Seven iterations bring the lowest bit of the index to the top, and the eighth divides once. -/
theorem tgMsb_one (hn : 8 ≤ n) (poly : BitVec n) : tgMsb poly 1 = poly := by
  have hseed : (1 : Byte).setWidth n <<< (n - 8) = BitVec.twoPow n (n - 8) := by
    rw [show (1 : Byte) = BitVec.twoPow 8 0 from rfl, setWidth_twoPow_byte hn (by decide), BitVec.twoPow_zero,
      BitVec.twoPow_eq]
  have hclear : ∀ i < 7, (BitVec.twoPow n (n - 8)).getMsbD i = false := fun i hi => by
    rw [BitVec.getMsbD_eq_getLsbD, BitVec.getLsbD_twoPow]; grind
  have htop : BitVec.twoPow n (n - 8) <<< 7 = BitVec.twoPow n (n - 1) := by
    rw [BitVec.twoPow_eq, BitVec.twoPow_eq, ← BitVec.shiftLeft_add]; congr 1; omega
  have hout : BitVec.twoPow n (n - 1) <<< 1 = 0#n := by
    rw [BitVec.twoPow_eq, ← BitVec.shiftLeft_add, BitVec.shiftLeft_eq_zero (by omega)]
  have hmsb : (BitVec.twoPow n (n - 1)).msb = true := by
    rw [BitVec.msb_twoPow]; grind
  rw [tgMsb, hseed, iterateBits_succ_last, iterateBits_msb_of_clear poly hclear, htop, msbIteration, if_pos hmsb, hout,
    BitVec.zero_xor]

/-- Seven iterations bring the highest bit of the index down to bit 0, and the eighth divides once. -/
theorem tgRefl_top (hn : 8 ≤ n) (poly : BitVec n) : tgRefl poly 0x80 = poly := by
  have hseed : (0x80 : Byte).setWidth n = BitVec.twoPow n 7 := setWidth_twoPow_byte (k := 7) hn (by decide)
  have hclear : ∀ i < 7, (BitVec.twoPow n 7).getLsbD i = false := fun i hi => by
    rw [BitVec.getLsbD_twoPow]; grind
  have hlow : BitVec.twoPow n 7 >>> 7 = BitVec.twoPow n 0 := by
    apply BitVec.eq_of_getLsbD_eq
    intro i hi
    rw [BitVec.getLsbD_ushiftRight, BitVec.getLsbD_twoPow, BitVec.getLsbD_twoPow]
    grind
  have hout : BitVec.twoPow n 0 >>> 1 = 0#n := by
    apply BitVec.eq_of_getLsbD_eq
    intro i hi
    rw [BitVec.getLsbD_ushiftRight, BitVec.getLsbD_twoPow, BitVec.getLsbD_zero]
    grind
  have hlsb : (BitVec.twoPow n 0).getLsbD 0 = true := by
    rw [BitVec.getLsbD_twoPow]; grind
  rw [tgRefl, hseed, iterateBits_succ_last, iterateBits_refl_of_clear poly hclear, hlow, reflIteration, if_pos hlsb,
    hout, BitVec.zero_xor]

theorem tgMsb_poly_zero (hn : 8 ≤ n) (x : Byte) : tgMsb 0#n x = 0#n := by
  rw [tgMsb, iterateBits_msb_poly_zero, ← BitVec.shiftLeft_add, BitVec.shiftLeft_eq_zero (by omega)]

theorem tgRefl_poly_zero (x : Byte) : tgRefl 0#n x = 0#n := by
  rw [tgRefl, iterateBits_refl_poly_zero]
  ext i; simp

theorem Config.polySW_of_poly_zero {c : Config} (h : c.poly = 0) : c.polySW = 0 := by
  rw [polySW, h]; exact BitVec.setWidth_zero ..

theorem Variant.tableAlgorithm_of_ne_crc32 {v : Variant} (h : v ≠ .crc32) : v.tableAlgorithm = .msbFirst := by
  cases v with
  | crc4 | crc8 | crc16 => rfl
  | crc32 => exact absurd rfl h

/-- Settles O30: one iteration is the pseudocode's step, and the examples are closed values. -/
theorem msbFirstGeneratorIsThePseudocode : Obligations.MsbFirstGeneratorIsThePseudocode := by
  refine ⟨fun c hv => ?_, by decide, by decide, by decide, by decide, by decide⟩
  have htg := Config.tg_of_msbFirst (Variant.tableAlgorithm_of_ne_crc32 hv)
  refine ⟨fun x => ?_, c.tg_zero, ?_, c.polySW_toNat, fun hp x => ?_⟩
  · rw [htg, tgMsb_toNat c.eight_le_sw, c.polySW_toNat]
  · rw [htg, tgMsb_one c.eight_le_sw]
  · rw [htg, Config.polySW_of_poly_zero hp]; exact tgMsb_poly_zero c.eight_le_sw x

/-- Settles O31: as for the MSB-first algorithm, with bit 0 tested and the shift to the right. -/
theorem reflectedGeneratorIsThePseudocode : Obligations.ReflectedGeneratorIsThePseudocode := by
  refine ⟨fun c hv => ?_, by decide, by decide, by decide⟩
  have htg := Config.tg_of_reflected (c := c) (by rw [hv]; rfl)
  refine ⟨fun x => ?_, c.tg_zero, ?_, fun hp x => ?_⟩
  · rw [htg, tgRefl_toNat c.eight_le_sw, c.polySW_toNat]
  · rw [htg, tgRefl_top c.eight_le_sw, c.polySW_toNat]
  · rw [htg, Config.polySW_of_poly_zero hp]; exact tgRefl_poly_zero x

end Sys2Proof
end

section
/-! SUPPORT. The fill (40_table_gen.md R110 to R112): what one fill edge writes, the state after `n` of them, and what
stays once READY = 1. -/

namespace Sys2Proof.Machine

/-- A run of one edge is the step. -/
theorem run_one (s : State) : run 1 s = step s := by
  obtain ⟨t, ht⟩ := step_answers s
  rw [run_succ ht, run_zero, ht]

/-! ### One fill edge -/

/-- R110: the whole next state of a fill edge, its index and READY on numbers. -/
theorem step_of_filling_eq {s : State} (hr : s.pins.rst = false) (hy : s.ready = false) :
    step s = .next
      { s with
        table := s.table.write s.fillIdx (s.cfg.tg s.fillIdx)
        fillIdx := BitVec.ofNat 8 ((s.fillIdx.toNat + 1) % 256)
        ready := decide (s.fillIdx.toNat = 255)
        host := s.host.tail } := by
  have hidx : s.fillIdx + 1 = BitVec.ofNat 8 ((s.fillIdx.toNat + 1) % 256) := by bv_omega
  have hready : (if s.fillIdx = 255 then true else s.ready) = decide (s.fillIdx.toNat = 255) := by
    simp [hy, ← BitVec.toNat_inj]
  rw [step_of_filling hr hy, State.fillEdge, hidx, hready]
  rfl

/-- Settles O34: a fill edge is one write of TABLE, read back by the write law. -/
theorem fillEdgeWritesOneEntry : Obligations.FillEdgeWritesOneEntry := fun s hw hr hy =>
  ⟨by simp [State.cmdReady, hy], s.table.write s.fillIdx (s.cfg.tg s.fillIdx), step_of_filling_eq hr hy,
    Memory.wf_write hw _ _, Memory.read_write hw _ _⟩

/-! ### Edges without reset -/

/-- What the host drives in the `n`-th cycle from the current one on. -/
def State.pinsAt (s : State) (n : Nat) : Pins := s.host[n]?.getD Pins.idle

theorem State.pinsAt_zero (s : State) : s.pinsAt 0 = s.pins := by
  rw [pinsAt, pins, List.headD_eq_head?_getD, List.head?_eq_getElem?]

theorem State.rst_pinsAt {s : State} {k n : Nat} (h : s.noReset k) (hn : n < k) : (s.pinsAt n).rst = false := by
  rw [pinsAt]
  cases hp : s.host[n]? with
  | none => rfl
  | some p => exact h p (List.mem_of_getElem? ((List.getElem?_take_of_lt hn).trans hp))

theorem State.rst_of_noReset {s : State} {k : Nat} (h : s.noReset (k + 1)) : s.pins.rst = false := by
  rw [← s.pinsAt_zero]; exact rst_pinsAt h (Nat.succ_pos k)

/-- Every edge takes the host's inputs one cycle on. -/
theorem Edge.host_eq {s t : State} (h : Edge s t) : t.host = s.host.tail := by
  cases h <;> rfl

theorem State.noReset_mono {s : State} {k n : Nat} (h : s.noReset k) (hn : n ≤ k) : s.noReset n := fun p hp =>
  h p (List.take_subset_take_left s.host hn hp)

theorem State.noReset_of_step {s t : State} {k : Nat} (h : s.noReset (k + 1)) (hstep : step s = .next t) :
    t.noReset k := by
  intro p hp
  rw [(Edge.of_step hstep).host_eq] at hp
  refine h p ?_
  cases hh : s.host with
  | nil => simp [hh] at hp
  | cons q rest => rw [hh, List.tail_cons] at hp; exact List.mem_cons_of_mem q hp

/-- What every edge without reset keeps, every run without reset keeps. -/
theorem run_keeps_of_noReset {P : State → Prop}
    (hP : ∀ s t, s.pins.rst = false → P s → step s = .next t → P t) {k : Nat} {s t : State} (hn : s.noReset k) (hs : P s)
    (h : run k s = .next t) : P t := by
  induction k generalizing s with
  | zero => injection h with h; exact h ▸ hs
  | succ k ih =>
    obtain ⟨u, hu, ht⟩ := run_succ_eq_next.mp h
    exact ih (State.noReset_of_step hn hu) (hP s u (State.rst_of_noReset hn) hs hu) ht

/-- R31: only a reset takes READY back to 0. -/
theorem ready_of_run_noReset {k : Nat} {s t : State} (hn : s.noReset k) (hy : s.ready = true)
    (h : run k s = .next t) : t.ready = true :=
  run_keeps_of_noReset (P := fun u => u.ready = true)
    (fun u v hr hu huv => ((readyAndFillIdxAreWrittenOnlyByResetAndFill u v huv).1).mpr ⟨hr, .inl hu⟩) hn hy h

/-- Settles O22: READY stays 1, the invariant stays, and it says what a READY state's TABLE reads. -/
theorem tableNeverChangesWhileReady : Obligations.TableNeverChangesWhileReady := by
  intro k s hinv hy hn
  obtain ⟨t, ht⟩ := run_answers k s
  have hready := ready_of_run_noReset hn hy ht
  have hread := (hinv.of_run ht).tableFilled hready
  obtain ⟨hcfg, -⟩ := configurationIsNeverWritten k s t ht
  exact ⟨t, ht, hready, fun i => ⟨hread i, by rw [hread i, hinv.tableFilled hy i, hcfg]⟩⟩

/-! ### The whole fill, from FILL_IDX = 0 -/

/-- TABLE after fill edges have written the entries below `n`. -/
def State.tableFilledTo (s : State) : Nat → Memory s.cfg.sw
  | 0 => s.table
  | n + 1 => (s.tableFilledTo n).write (BitVec.ofNat 8 n) (s.cfg.tg (BitVec.ofNat 8 n))

/-- The state after `n` fill edges, for `n` at most 256. -/
def State.filledTo (s : State) (n : Nat) : State :=
  { s with
    table := s.tableFilledTo n
    fillIdx := BitVec.ofNat 8 n
    ready := decide (n = 256)
    host := s.host.drop n }

theorem State.tableFilledTo_wf {s : State} (hw : s.table.wf = true) (n : Nat) : (s.tableFilledTo n).wf = true := by
  induction n with
  | zero => exact hw
  | succ n ih => exact Memory.wf_write ih _ _

theorem State.tableFilledTo_read {s : State} (hw : s.table.wf = true) {n : Nat} (hn : n ≤ 256) (i : Byte) :
    (s.tableFilledTo n).read i = if i.toNat < n then s.cfg.tg i else s.table.read i := by
  induction n with
  | zero => simp [State.tableFilledTo]
  | succ n ih =>
    rw [State.tableFilledTo, Memory.read_write (State.tableFilledTo_wf hw n), ih (by omega)]
    by_cases hi : i = BitVec.ofNat 8 n
    · have hlt : i.toNat < n + 1 := by bv_omega
      rw [if_pos hi, if_pos hlt, hi]
    · have hiff : i.toNat < n ↔ i.toNat < n + 1 := by bv_omega
      simp only [if_neg hi, hiff]

/-- R112: after 256 edges TABLE is the full table, whatever it held before. -/
theorem State.tableFilledTo_256 {s : State} (hw : s.table.wf = true) : s.tableFilledTo 256 = fullTable s.cfg := by
  refine Memory.eq_of_read (State.tableFilledTo_wf hw 256) (fullTable_wf s.cfg) fun i => ?_
  rw [State.tableFilledTo_read hw (Nat.le_refl 256), if_pos i.isLt, fullTable_read]

/-- The cycle after `n` fill edges is the host's `n`-th. -/
theorem State.filledTo_pins (s : State) (n : Nat) : (s.filledTo n).pins = s.pinsAt n := by
  rw [pins, filledTo, pinsAt, List.headD_eq_head?_getD, List.head?_drop]

theorem State.filledTo_zero {s : State} (hy : s.ready = false) (hidx : s.fillIdx = 0) : s.filledTo 0 = s := by
  obtain ⟨c, r, tb, res, rv, f, e, ec, rd, i, l⟩ := s
  cases hy; cases hidx; rfl

/-- Below 256 the next edge is the next fill edge. -/
theorem State.step_filledTo {s : State} {n : Nat} (hr : (s.pinsAt n).rst = false) (hn : n < 256) :
    step (s.filledTo n) = .next (s.filledTo (n + 1)) := by
  have hy : (s.filledTo n).ready = false := decide_eq_false (by omega)
  have hnat : (BitVec.ofNat 8 n).toNat = n := Nat.mod_eq_of_lt hn
  have hidx : BitVec.ofNat 8 ((n + 1) % 256) = BitVec.ofNat 8 (n + 1) := by
    rw [← BitVec.toNat_inj]; exact Nat.mod_mod (n + 1) 256
  have hready : decide (n = 255) = decide (n + 1 = 256) := decide_eq_decide.mpr (by omega)
  rw [step_of_filling_eq (by rwa [filledTo_pins]) hy]
  simp only [filledTo, tableFilledTo, hnat, hidx, hready, List.tail_drop]

/-- R111: without reset the first 256 edges are fill edges, one entry each. -/
theorem run_eq_filledTo {s : State} (hy : s.ready = false) (hidx : s.fillIdx = 0) {n : Nat} (h : s.noReset n)
    (hn : n ≤ 256) : run n s = .next (s.filledTo n) := by
  induction n with
  | zero => rw [State.filledTo_zero hy hidx, run_zero]
  | succ n ih =>
    have hrun := ih (State.noReset_mono h (Nat.le_succ n)) (by omega)
    rw [run_add hrun, run_one, State.step_filledTo (State.rst_pinsAt h (Nat.lt_succ_self n)) hn]

/-- R111, R112: the state after the whole fill. -/
theorem State.filledTo_256 {s : State} (hw : s.table.wf = true) : s.filledTo 256 =
    { s with table := fullTable s.cfg, fillIdx := 0, ready := true, host := s.host.drop 256 } := by
  rw [filledTo, tableFilledTo_256 hw]
  rfl

/-- Settles O35: by induction on the fill edges; the edge after them accepts what its cycle presents. -/
theorem fillTakesExactly256Edges : Obligations.FillTakesExactly256Edges := by
  intro s hw hy hidx hn
  have hrun (n : Nat) (hle : n ≤ 256) : run n s = .next (s.filledTo n) :=
    run_eq_filledTo hy hidx (State.noReset_mono hn (by omega)) hle
  refine ⟨fun n hle => ⟨s.tableFilledTo n, hrun n hle, State.tableFilledTo_read hw hle⟩, fun p hp hv => ?_⟩
  have hpins : (s.filledTo 256).pins = p := by rw [State.filledTo_pins, State.pinsAt, hp, Option.getD_some]
  have hr : p.rst = false := by
    rw [← hpins, State.filledTo_pins]; exact State.rst_pinsAt hn (by decide)
  have haccepts : (s.filledTo 256).accepts (decode p.word) :=
    State.accepts_iff.mpr (by rw [hpins]; exact ⟨hr, rfl, hv, rfl⟩)
  rw [run_add (hrun 256 (Nat.le_refl _)) 1, run_one, step_of_accepts haccepts, State.filledTo_256 hw]

/-! ### withFetchWord (log 7) -/

@[simp] theorem Pins.present_word (w : CmdWord) (a : Byte) : (Pins.present w a).word = w := cmdWord_op_data w

/-- Settles O57: the word stands on the pins of a READY state; from reset the fill is R111's. -/
theorem withFetchWordRunsTheCommandNext : Obligations.WithFetchWordRunsTheCommandNext := by
  refine ⟨fun s w hw => ?_, fun c => ?_⟩
  · have hstate : s.withFetchWord 16 w = { s.afterFill with
        host := Pins.present (BitVec.ofNat 10 w) s.pins.tblAddr :: s.host.tail } := by
      rw [State.withFetchWord, tableNumber_of_lt (by omega), State.presentNumber, if_pos hw]
    refine ⟨?_, _, hstate⟩
    rw [hstate]
    exact step_of_accepts (State.accepts_iff.mpr ⟨rfl, rfl, rfl, congrArg decode (Pins.present_word _ _)⟩)
  · have hn : (State.resetOf c).noReset 256 := fun p hp => by cases hp
    rw [run_eq_filledTo rfl rfl hn (Nat.le_refl _), State.filledTo_256 Memory.wf_nil]
    rfl

end Sys2Proof.Machine
end

section
/-! SUPPORT. Frames (41_commands.md R123, R131 to R133). Every command answers a next state, so the cycles of a READY
block run the commands they present one after another as a fold; NOPs drop out of it, and over the commands of a frame
it is INIT, the fold of UPD over the stream, and FIN. -/

namespace Sys2Proof.Machine

/-! ### A command as a function on states -/

/-- The state an executed command leaves; no command answers anything but a next state (`exec_eq_afterCommand`). -/
def State.afterCommand (s : State) (i : Instr) : State :=
  match exec i s with
  | .next t => t
  | .fault _ => s
  | .refused _ => s

theorem State.afterCommand_of_exec {i : Instr} {s t : State} (h : exec i s = .next t) : s.afterCommand i = t := by
  rw [afterCommand, h]

theorem exec_eq_afterCommand (i : Instr) (s : State) : exec i s = .next (s.afterCommand i) := by
  obtain ⟨t, ht⟩ := exec_answers i s
  rw [State.afterCommand_of_exec ht, ht]

theorem State.afterCommand_nop (s : State) : s.afterCommand .nop = s := afterCommand_of_exec (exec_nop s)

theorem State.afterCommand_init (s : State) : s.afterCommand .init = (s.setReg s.cfg.seed).openFrame :=
  afterCommand_of_exec (exec_init s)

theorem State.afterCommand_byte {s : State} (hf : s.inFrame = true) (b : Byte) :
    s.afterCommand (.byte b) = s.setReg (upd s.cfg s.table.read s.reg b) :=
  afterCommand_of_exec (exec_byte_inFrame hf b)

theorem State.afterCommand_final {s : State} (hf : s.inFrame = true) :
    s.afterCommand .final = (s.setResult (fin s.cfg s.reg)).closeFrame :=
  afterCommand_of_exec (exec_final_inFrame hf)

theorem State.afterCommand_ready (s : State) (i : Instr) : (s.afterCommand i).ready = s.ready := by
  obtain ⟨-, -, hready, -, -⟩ := noCommandWritesTheTable i s _ (exec_eq_afterCommand i s)
  exact hready

theorem State.afterCommand_host (s : State) (i : Instr) : (s.afterCommand i).host = s.host := by
  obtain ⟨-, -, -, -, hhost⟩ := noCommandWritesTheTable i s _ (exec_eq_afterCommand i s)
  exact hhost

/-! ### Commands do not read what the host will drive -/

/-- The state with other inputs to come. -/
def State.withHost (s : State) (l : List Pins) : State := { s with host := l }

/-- With other inputs to come a command is the same case, and leaves them alone. -/
theorem exec_withHost {i : Instr} {s t : State} (h : exec i s = .next t) (l : List Pins) :
    exec i (s.withHost l) = .next (t.withHost l) := by
  rcases exec_cases h with ⟨rfl, rfl⟩ | ⟨rfl, rfl⟩ | ⟨b, rfl, hf, rfl⟩ | ⟨b, rfl, hf, rfl⟩ | ⟨rfl, hf, rfl⟩ |
    ⟨rfl, hf, rfl⟩
  · rfl
  · rfl
  · exact exec_byte_inFrame (s := s.withHost l) hf b
  · exact exec_byte_outsideFrame (s := s.withHost l) hf b
  · exact exec_final_inFrame (s := s.withHost l) hf
  · exact exec_final_outsideFrame (s := s.withHost l) hf

theorem State.afterCommand_withHost (s : State) (l : List Pins) (i : Instr) :
    (s.withHost l).afterCommand i = (s.afterCommand i).withHost l :=
  afterCommand_of_exec (exec_withHost (exec_eq_afterCommand i s) l)

/-! ### The commands of a run of cycles, folded -/

theorem foldl_afterCommand_withHost (is : List Instr) (s : State) (l : List Pins) :
    is.foldl State.afterCommand (s.withHost l) = (is.foldl State.afterCommand s).withHost l :=
  List.foldl_hom (fun t : State => t.withHost l) fun t i => t.afterCommand_withHost l i

theorem foldl_afterCommand_ready (is : List Instr) (s : State) :
    (is.foldl State.afterCommand s).ready = s.ready := by
  induction is generalizing s with
  | nil => rfl
  | cons i is ih => rw [List.foldl_cons, ih, s.afterCommand_ready]

/-- R122: NOPs between the commands make no difference. -/
theorem foldl_afterCommand_filter_nop (is : List Instr) (s : State) :
    (is.filter fun i => i ≠ .nop).foldl State.afterCommand s = is.foldl State.afterCommand s := by
  have hskip (t : State) (i : Instr) : (if decide (i ≠ .nop) then t.afterCommand i else t) = t.afterCommand i := by
    by_cases hi : i = .nop
    · rw [hi, t.afterCommand_nop]; rfl
    · rw [if_pos (decide_eq_true hi)]
  rw [List.foldl_filter]
  simp only [hskip]

theorem commandsOf_append (l l' : List Pins) : commandsOf (l ++ l') = commandsOf l ++ commandsOf l' := by
  simp [commandsOf]

theorem commandsOf_of_idle {p : Pins} (hv : p.cmdValid = false) : commandsOf [p] = [] := by
  simp [commandsOf, hv]

theorem commandsOf_of_valid {p : Pins} (hv : p.cmdValid = true) : commandsOf [p] = [decode p.word] := by
  simp [commandsOf, hv]

/-- An edge of a READY block runs what its cycle presents: one command or none. -/
theorem step_eq_foldl_commandsOf {s : State} {p : Pins} {rest : List Pins} (hy : s.ready = true)
    (hs : s.host = p :: rest) (hr : p.rst = false) :
    step s = .next (((commandsOf [p]).foldl State.afterCommand s).withHost rest) := by
  have hp : s.pins = p := by rw [State.pins, hs, List.headD_cons]
  have htail : s.host.tail = rest := by rw [hs, List.tail_cons]
  cases hv : p.cmdValid with
  | false =>
    rw [step_of_idle (by rw [hp, hr]) hy (by rw [hp, hv]), commandsOf_of_idle hv, ← htail]
    rfl
  | true =>
    have ha : s.accepts (decode p.word) := State.accepts_iff.mpr (by rw [hp]; exact ⟨hr, hy, hv, rfl⟩)
    rw [step_of_accepts_exec ha (exec_eq_afterCommand _ s), commandsOf_of_valid hv, ← htail,
      ← s.afterCommand_host (decode p.word)]
    rfl

/-- Over cycles without reset a READY block runs the commands they present, in order. -/
theorem run_eq_foldl_commandsOf {s : State} {cycles rest : List Pins} (hy : s.ready = true)
    (hs : s.host = cycles ++ rest) (hr : ∀ p ∈ cycles, p.rst = false) :
    run cycles.length s = .next (((commandsOf cycles).foldl State.afterCommand s).withHost rest) := by
  induction cycles generalizing s with
  | nil => rw [List.nil_append] at hs; rw [← hs]; rfl
  | cons p cycles ih =>
    obtain ⟨hp, hcycles⟩ := List.forall_mem_cons.mp hr
    have hready : ((commandsOf [p]).foldl State.afterCommand s).ready = true := by
      rw [foldl_afterCommand_ready, hy]
    have hrest := ih (s := ((commandsOf [p]).foldl State.afterCommand s).withHost (cycles ++ rest)) hready rfl hcycles
    rw [foldl_afterCommand_withHost, ← List.foldl_append, ← commandsOf_append] at hrest
    exact (run_succ (step_eq_foldl_commandsOf hy hs hp) cycles.length).trans hrest

/-! ### The commands of one frame -/

/-- REG at the end of a frame: UPD folded from SEED over the stream, with the entries TABLE holds. -/
def State.frameReg (s : State) (bytes : List Byte) : BitVec s.cfg.sw :=
  bytes.foldl (upd s.cfg s.table.read) s.cfg.seed

theorem foldl_afterCommand_bytes {s : State} (hf : s.inFrame = true) (bytes : List Byte) :
    (bytes.map Instr.byte).foldl State.afterCommand s =
      s.setReg (bytes.foldl (upd s.cfg s.table.read) s.reg) := by
  induction bytes generalizing s with
  | nil => rfl
  | cons b bytes ih =>
    rw [List.map_cons, List.foldl_cons, State.afterCommand_byte hf]
    exact ih (s := s.setReg (upd s.cfg s.table.read s.reg b)) hf

/-- INIT opens the frame at SEED, each BYTE updates REG, FINAL publishes and closes. -/
theorem foldl_afterCommand_frame (s : State) (bytes : List Byte) :
    (Instr.init :: bytes.map Instr.byte ++ [Instr.final]).foldl State.afterCommand s =
      { s with
        reg := s.frameReg bytes
        result := fin s.cfg (s.frameReg bytes)
        resultValid := true
        inFrame := false } := by
  rw [List.cons_append, List.foldl_cons, s.afterCommand_init, List.foldl_append, foldl_afterCommand_bytes rfl,
    List.foldl_cons, State.afterCommand_final rfl]
  rfl

/-- The whole state a frame's cycles leave of a READY block, whatever its TABLE holds. -/
theorem run_frame {s : State} {bytes : List Byte} {cycles rest : List Pins} (hy : s.ready = true)
    (hs : s.host = cycles ++ rest) (hframe : IsFrameOf bytes cycles) :
    run cycles.length s = .next
      { s with
        reg := s.frameReg bytes
        result := fin s.cfg (s.frameReg bytes)
        resultValid := true
        inFrame := false
        host := rest } := by
  obtain ⟨hr, hcommands⟩ := hframe
  rw [run_eq_foldl_commandsOf hy hs hr, ← foldl_afterCommand_filter_nop, hcommands, foldl_afterCommand_frame]
  rfl

/-- R112: the entries of a READY block's TABLE are TG's, so what FINAL publishes is CRC_V of the stream. -/
theorem State.Inv.fin_frameReg {s : State} (h : s.Inv) (hy : s.ready = true) (bytes : List Byte) :
    fin s.cfg (s.frameReg bytes) = streamCrc s.cfg bytes := by
  have hread : s.table.read = s.cfg.tg := funext (h.tableFilled hy)
  rw [frameReg, hread, streamCrc]

/-- Settles O44: the frame's commands folded, with the entries the invariant gives TABLE. -/
theorem aFrameComputesTheChecksumOfItsStream : Obligations.AFrameComputesTheChecksumOfItsStream := by
  intro s bytes cycles rest hinv hy hs hframe
  refine ⟨s.frameReg bytes, ?_⟩
  rw [run_frame hy hs hframe, hinv.fin_frameReg hy]

/-- R131: where FIN keeps REG, the finalized seed is all-ones. -/
theorem State.ports_of_seed_kept {t : State} {v : Variant} (ht : t.result = fin t.cfg t.cfg.seed)
    (hv : t.cfg.variant = v) (hkeeps : v.finalInversion = false) :
    t.result.toNat = 2 ^ v.sw - 1 ∧ t.crcO.toNat = (2 ^ v.sw - 1) % 2 ^ v.w := by
  subst hv
  rw [t.crcO_toNat, ht, fin_keeps hkeeps, Config.seed_toNat]
  exact ⟨rfl, rfl⟩

/-- R131: where FIN inverts REG, the finalized seed is 0. -/
theorem State.ports_of_seed_inverted {t : State} (ht : t.result = fin t.cfg t.cfg.seed)
    (hinverts : t.cfg.variant.finalInversion = true) : t.result.toNat = 0 ∧ t.crcO.toNat = 0 := by
  rw [t.crcO_toNat, ht, fin_inverts hinverts, Config.seed, BitVec.not_allOnes]
  exact ⟨rfl, Nat.zero_mod _⟩

/-- Settles O45: with no BYTE between, REG is still SEED when FINAL publishes it. -/
theorem anEmptyFrameGivesTheFinalizedSeed : Obligations.AnEmptyFrameGivesTheFinalizedSeed := by
  intro s cycles rest hy hs hframe
  obtain ⟨t, hrun, hcfg, hvalid, hresult⟩ : ∃ t, run cycles.length s = .next t ∧ t.cfg = s.cfg ∧ t.resultValid = true ∧
      t.result = fin t.cfg t.cfg.seed := ⟨_, run_frame hy hs hframe, rfl, rfl, rfl⟩
  rw [← hcfg]
  refine ⟨t, hrun, rfl, hvalid, fun hv => ?crc4, fun hv => ?crc8, fun hv => ?crc16, fun hv => ?crc32⟩
  case crc4 => exact State.ports_of_seed_kept hresult hv rfl
  case crc8 => exact State.ports_of_seed_kept hresult hv rfl
  case crc16 => exact State.ports_of_seed_kept hresult hv rfl
  case crc32 => exact State.ports_of_seed_inverted hresult (congrArg Variant.finalInversion hv)

/-- What the checksum ports show after a frame is determined by the generics and the stream alone. -/
theorem State.Inv.ports_after_frame {s : State} {bytes : List Byte} {cycles rest : List Pins} (h : s.Inv)
    (hy : s.ready = true) (hs : s.host = cycles ++ rest) (hframe : IsFrameOf bytes cycles) :
    ∃ t, run cycles.length s = .next t ∧ t.result.toNat = (streamCrc s.cfg bytes).toNat ∧
      t.crcO.toNat = (streamCrc s.cfg bytes).toNat % 2 ^ s.cfg.w ∧ t.resultValid = true := by
  obtain ⟨r, hrun⟩ := aFrameComputesTheChecksumOfItsStream s bytes cycles rest h hy hs hframe
  exact ⟨_, hrun, rfl, State.crcO_toNat _, rfl⟩

/-- Settles O46: both frames end with CRC_V of the one stream under the same generics. -/
theorem framesDoNotAccumulate : Obligations.FramesDoNotAccumulate := by
  intro s s' bytes cycles cycles' rest rest' hinv hinv' hcfg hy hy' hs hs' hframe hframe'
  obtain ⟨t, hrun, hresult, hcrc, hvalid⟩ := hinv.ports_after_frame hy hs hframe
  obtain ⟨t', hrun', hresult', hcrc', hvalid'⟩ := hinv'.ports_after_frame hy' hs' hframe'
  rw [← hcfg] at hresult' hcrc'
  exact ⟨t, t', hrun, hrun', hresult.trans hresult'.symm, hcrc.trans hcrc'.symm, hvalid, hvalid'⟩

end Sys2Proof.Machine
end

section
/-! SUPPORT. The constants that the commands' corner cases start from (41_commands.md R124, R126, R127). -/

namespace Sys2Proof

/-- SEED as the number of a given storage width. -/
theorem Config.seed_toNat_of_sw {c : Config} {n : Nat} (h : c.sw = n) : c.seed.toNat = 2 ^ n - 1 := by
  rw [seed_toNat, h]

/-- R102: with an MSB-first table, index 1 holds POLY. -/
theorem Config.tg_one {c : Config} (hv : c.variant ≠ .crc32) : c.tg 1 = c.polySW := by
  rw [tg_of_msbFirst (Variant.tableAlgorithm_of_ne_crc32 hv), tgMsb_one c.eight_le_sw]

end Sys2Proof
end

section
/-! SUPPORT. Which command an edge runs, and what NOP, INIT and FINAL do (41_commands.md R120 to R124, R129, R130). -/

namespace Sys2Proof.Machine

/-- R120: each op chooses its command, and only op 10 takes the data. -/
theorem decode_word_of_cmdOp (p : Pins) :
    (p.cmdOp = 0b00#2 → decode p.word = .nop) ∧ (p.cmdOp = 0b01#2 → decode p.word = .init) ∧
    (p.cmdOp = 0b10#2 → decode p.word = .byte p.cmdData) ∧ (p.cmdOp = 0b11#2 → decode p.word = .final) := by
  refine ⟨fun hop => ?_, fun hop => ?_, fun hop => ?_, fun hop => ?_⟩
  · rw [Pins.word, hop, decode_cmdWord_nop]
  · rw [Pins.word, hop, decode_cmdWord_init]
  · rw [Pins.word, hop, decode_cmdWord_byte]
  · rw [Pins.word, hop, decode_cmdWord_final]

/-- Settles O36: the accepting edge is the decoded command's execution, which leaves the host's inputs alone. -/
theorem stepRunsTheAcceptedCommand : Obligations.StepRunsTheAcceptedCommand := by
  intro s hr hy hv
  have ha : s.accepts (decode s.pins.word) := State.accepts_iff.mpr ⟨hr, hy, hv, rfl⟩
  have hexec := exec_eq_afterCommand (decode s.pins.word) s
  refine ⟨decode s.pins.word, s.afterCommand (decode s.pins.word), rfl, hexec, ?_, decode_word_of_cmdOp s.pins⟩
  rw [step_of_accepts_exec ha hexec, State.nextCycle, s.afterCommand_host]

/-- R84: while cmd_ready = 0 the edge is a reset or a fill edge, whatever is on the command pins. -/
theorem State.edgeCase_of_not_cmdReady {s : State} {p : Pins} (h : s.cmdReady p = false) :
    s.edgeCase p = if p.rst then .reset else .fill := by
  cases hr : p.rst with
  | true => simp [edgeCase, hr]
  | false =>
    have hy : s.ready = false := by simpa [cmdReady, hr] using h
    simp [edgeCase, hr, hy]

/-- Settles O37: an idle edge is an update of the host's inputs alone, and the command pins choose no case of an edge
while cmd_ready = 0. -/
theorem unacceptedCommandsHaveNoEffect : Obligations.UnacceptedCommandsHaveNoEffect := by
  refine ⟨fun s hr hy hv => step_of_idle hr hy hv, fun s p rest v op d hs hready => ?_⟩
  have hp : s.pins = p := by rw [State.pins, hs, List.headD_cons]
  have hready' : s.cmdReady { p with cmdValid := v, cmdOp := op, cmdData := d } = false := hready
  have hcase : s.edgeCase { p with cmdValid := v, cmdOp := op, cmdData := d } = s.edgeCase s.pins := by
    rw [hp, State.edgeCase_of_not_cmdReady hready, State.edgeCase_of_not_cmdReady hready']
  exact step_withHost hcase (by rw [hs, List.tail_cons, List.tail_cons])

/-- Settles O38: NOP's equation, its op and its encoding. -/
theorem nopChangesNothing : Obligations.NopChangesNothing :=
  ⟨exec_nop, decode_cmdWord_nop, rfl⟩

/-- R41: the status word of an open frame without an error. -/
theorem State.Inv.statusO_openFrame {s : State} (h : s.Inv) (hy : s.ready = true) (he : s.err = false) :
    s.openFrame.statusO = 0b000011#6 := by
  have hcause : s.errCause = 0b00#2 := h.errIffCause.mp he
  simp [State.statusO, flagBit, hy, he, hcause]

/-- Settles O39: INIT's equation, its op and its encoding. -/
theorem initStartsAFrame : Obligations.InitStartsAFrame := by
  refine ⟨exec_init, fun s t h hinv hy he => ?_, decode_cmdWord_init, rfl⟩
  injection (exec_init s).symm.trans h with ht
  subst ht
  refine ⟨(hinv.setReg hy s.cfg.seed).statusO_openFrame hy he, fun hv => ?_⟩
  exact Config.seed_toNat_of_sw (congrArg Variant.sw hv)

/-- R130 on numbers: CRC32 complements the 32 bits of REG, the other variants keep REG. -/
theorem fin_eq (c : Config) (r : BitVec c.sw) :
    fin c r = if c.variant = .crc32 then BitVec.ofNat c.sw (2 ^ 32 - 1 - r.toNat) else r := by
  obtain ⟨v, p⟩ := c
  cases v with
  | crc4 | crc8 | crc16 => rfl
  | crc32 =>
    have hlt : 2 ^ 32 - 1 - r.toNat < 2 ^ 32 := by omega
    rw [fin_inverts rfl, if_pos rfl, ← BitVec.toNat_inj, BitVec.toNat_not]
    exact (Nat.mod_eq_of_lt hlt).symm

/-- Settles O43: FINAL's two equations, with FIN on numbers; the examples are closed values. -/
theorem finalPublishesInAFrameAndErrsOutside : Obligations.FinalPublishesInAFrameAndErrsOutside := by
  refine ⟨fun s hf => ?_, fun s hf => exec_final_outsideFrame hf, decode_cmdWord_final, rfl, by decide +kernel, by decide⟩
  rw [exec_final_inFrame hf, ← fin_eq]
  rfl

/-- Settles O54: the ports are functions of the state, and FINAL's update shows in the next one. -/
theorem finalShowsInTheNextCycle : Obligations.FinalShowsInTheNextCycle := by
  intro s ha hf
  refine ⟨rfl, s.crcO_toNat, rfl, _, step_of_accepts_exec ha (exec_final_inFrame hf), rfl, State.crcO_toNat _, rfl, ?_, ?_⟩
  · exact State.statusO_inFrame _
  · exact State.statusO_resultValid _

end Sys2Proof.Machine
end

section
/-! SUPPORT. BYTE in a frame: the three update forms on numbers (41_commands.md R126 to R128) and their corner cases. -/

namespace Sys2Proof.Machine

variable {n : Nat}

/-! ### Index and combination on numbers -/

/-- R126: the index is the low byte of REG XOR b; a one-byte REG has no other bits. -/
theorem tableIndex_oneByte (r : BitVec n) (b : Byte) :
    tableIndex .oneByte r b = BitVec.ofNat 8 (r.toNat ^^^ b.toNat) := by
  rw [tableIndex, ← BitVec.toNat_inj]
  simp

/-- R127: the index is the low byte of (REG >> 8) XOR b. -/
theorem tableIndex_twoByte (r : BitVec n) (b : Byte) :
    tableIndex .twoByte r b = BitVec.ofNat 8 (r.toNat / 256 ^^^ b.toNat) := by
  simp only [tableIndex, ← BitVec.toNat_inj]
  simp [Nat.shiftRight_eq_div_pow]

/-- R128: the index is REG[7:0] XOR b. -/
theorem tableIndex_fourByteReflected (hn : 8 ≤ n) (r : BitVec n) (b : Byte) :
    tableIndex .fourByteReflected r b = BitVec.ofNat 8 (r.toNat % 256 ^^^ b.toNat) := by
  rw [tableIndex, BitVec.setWidth_xor, BitVec.setWidth_setWidth_of_le b hn, BitVec.setWidth_eq, ← BitVec.toNat_inj]
  simp

/-- R127: the shift of a 16-bit register by 8 keeps its low byte. -/
theorem combineEntry_twoByte (hn : n = 16) (r entry : BitVec n) :
    combineEntry .twoByte r entry = BitVec.ofNat n ((r.toNat % 256 * 256) ^^^ entry.toNat) := by
  subst hn
  have hshift : (r <<< 8).toNat = r.toNat % 256 * 256 := by
    rw [BitVec.toNat_shiftLeft, Nat.shiftLeft_eq]; omega
  rw [combineEntry, ← hshift, ← BitVec.toNat_xor, BitVec.ofNat_toNat, BitVec.setWidth_eq]

/-- R128: the shift is logical, a division of the number. -/
theorem combineEntry_fourByteReflected (r entry : BitVec n) :
    combineEntry .fourByteReflected r entry = BitVec.ofNat n (entry.toNat ^^^ (r.toNat / 256)) := by
  have hshift : (r >>> 8).toNat = r.toNat / 256 := by
    rw [BitVec.toNat_ushiftRight, Nat.shiftRight_eq_div_pow]
  rw [combineEntry, ← hshift, ← BitVec.toNat_xor, BitVec.ofNat_toNat, BitVec.setWidth_eq]

/-! ### UPD of each form on numbers -/

variable {c : Config}

theorem upd_oneByte (hform : c.variant.updateForm = .oneByte) (lookup : Byte → BitVec c.sw) (r : BitVec c.sw)
    (b : Byte) : upd c lookup r b = lookup (BitVec.ofNat 8 (r.toNat ^^^ b.toNat)) := by
  rw [upd_of_form hform, tableIndex_oneByte]
  rfl

theorem upd_twoByte (hv : c.variant = .crc16) (lookup : Byte → BitVec c.sw) (r : BitVec c.sw) (b : Byte) :
    upd c lookup r b = BitVec.ofNat c.sw
      ((r.toNat % 256 * 256) ^^^ (lookup (BitVec.ofNat 8 (r.toNat / 256 ^^^ b.toNat))).toNat) := by
  have hform : c.variant.updateForm = .twoByte := congrArg Variant.updateForm hv
  have hsw : c.sw = 16 := congrArg Variant.sw hv
  rw [upd_of_form hform, tableIndex_twoByte, combineEntry_twoByte hsw]

theorem upd_fourByteReflected (hv : c.variant = .crc32) (lookup : Byte → BitVec c.sw) (r : BitVec c.sw) (b : Byte) :
    upd c lookup r b = BitVec.ofNat c.sw
      ((lookup (BitVec.ofNat 8 (r.toNat % 256 ^^^ b.toNat))).toNat ^^^ (r.toNat / 256)) := by
  have hform : c.variant.updateForm = .fourByteReflected := congrArg Variant.updateForm hv
  rw [upd_of_form hform, tableIndex_fourByteReflected c.eight_le_sw, combineEntry_fourByteReflected]

/-- Settles O40: the form on numbers; equal operands look up TG(0) = 0, and REG = 0 with b = 1 looks up TG(1). -/
theorem byteInFrameOneByteForm : Obligations.ByteInFrameOneByteForm := by
  have hform {c : Config} (hv : c.variant = .crc4 ∨ c.variant = .crc8) : c.variant.updateForm = .oneByte :=
    hv.elim (congrArg Variant.updateForm) (congrArg Variant.updateForm)
  refine ⟨fun s b hf hv => ?_, fun c hv => ?_, by decide, by decide, by decide⟩
  · rw [exec_byte_inFrame hf, upd_oneByte (hform hv)]
    rfl
  · have hequal (r : BitVec c.sw) (b : Byte) (hrb : r.toNat = b.toNat) : upd c c.tg r b = 0 := by
      rw [upd_oneByte (hform hv), hrb, Nat.xor_self]
      exact c.tg_zero
    have hsw : c.sw = 8 := hv.elim (congrArg Variant.sw) (congrArg Variant.sw)
    have hne : c.variant ≠ .crc32 := by rcases hv with hv | hv <;> simp [hv]
    refine ⟨hequal, hequal _ _ (Config.seed_toNat_of_sw hsw), ?_⟩
    change upd c c.tg 0#c.sw 1 = c.polySW
    rw [upd_oneByte (hform hv), BitVec.toNat_zero, Nat.zero_xor]
    exact Config.tg_one hne

/-- Settles O41: the form on numbers; the seed's top byte cancels 0xFF, and REG = 0 with b = 1 looks up TG(1). -/
theorem byteInFrameTwoByteForm : Obligations.ByteInFrameTwoByteForm := by
  refine ⟨fun s b hf hv => ?_, fun c hv => ⟨?_, ?_⟩, by decide, by decide⟩
  · rw [exec_byte_inFrame hf, upd_twoByte hv]
    rfl
  · have hsw : c.sw = 16 := congrArg Variant.sw hv
    have hzero : c.tg (BitVec.ofNat 8 ((2 ^ 16 - 1) / 256 ^^^ (0xFF : Byte).toNat)) = 0#c.sw := c.tg_zero
    rw [upd_twoByte hv, Config.seed_toNat_of_sw hsw, hzero, BitVec.toNat_zero, BitVec.toNat_ofNat, hsw]
    rfl
  · change upd c c.tg 0#c.sw 1 = c.polySW
    rw [upd_twoByte hv, BitVec.toNat_zero, Nat.zero_mod, Nat.zero_mul, Nat.zero_xor, Nat.zero_div, Nat.zero_xor,
      BitVec.ofNat_toNat, BitVec.setWidth_eq]
    exact Config.tg_one (by rw [hv]; decide)

/-- Settles O42: the form on numbers; the seed's low byte cancels 0xFF. -/
theorem byteInFrameFourByteForm : Obligations.ByteInFrameFourByteForm := by
  refine ⟨fun s b hf hv => ?_, fun c hv => ?_, by decide, by decide⟩
  · rw [exec_byte_inFrame hf, upd_fourByteReflected hv]
    rfl
  · have hsw : c.sw = 32 := congrArg Variant.sw hv
    have hzero : c.tg (BitVec.ofNat 8 ((2 ^ 32 - 1) % 256 ^^^ (0xFF : Byte).toNat)) = 0#c.sw := c.tg_zero
    rw [upd_fourByteReflected hv, Config.seed_toNat_of_sw hsw, hzero, BitVec.toNat_zero, BitVec.toNat_ofNat, hsw]
    rfl

end Sys2Proof.Machine
end

section
/-! SUPPORT. The checksum ports between INIT and the next FINAL (41_commands.md R182). -/

namespace Sys2Proof.Machine

/-- What a property of every cycle of `k + 1` says of the current one and of the later ones. -/
theorem State.forall_take_succ {s : State} {Q : Pins → Prop} {k : Nat} (hidle : Q Pins.idle)
    (h : ∀ p ∈ s.host.take (k + 1), Q p) : Q s.pins ∧ ∀ p ∈ s.host.tail.take k, Q p := by
  rw [pins]
  cases hhost : s.host with
  | nil => exact ⟨hidle, by simp⟩
  | cons p rest =>
    rw [hhost, List.take_succ_cons] at h
    exact List.forall_mem_cons.mp h

/-- A cycle at which the host neither resets nor presents FINAL. -/
def Pins.keepsResult (p : Pins) : Prop := p.rst = false ∧ (p.cmdValid = true → decode p.word ≠ .final)

theorem Pins.keepsResult_idle : Pins.idle.keepsResult := ⟨rfl, by simp [Pins.idle]⟩

/-- The generics and RESULT of an earlier state, with RESULT_VALID = 0. -/
structure State.ShowsStale (old s : State) : Prop where
  cfg_eq : s.cfg = old.cfg
  result_eq : s.result.toNat = old.result.toNat
  invalid : s.resultValid = false

theorem Pins.keepsResult.not_accepts_final {s : State} (h : s.pins.keepsResult) : ¬ s.accepts .final := by
  rintro ⟨-, hvalid, hfinal⟩
  obtain ⟨-, hnot⟩ := h
  exact hnot hvalid hfinal

/-- Only reset and FINAL write RESULT (R26), and only FINAL sets RESULT_VALID (R27). -/
theorem Edge.showsStale {old s t : State} (h : Edge s t) (hp : s.pins.keepsResult) (hs : old.ShowsStale s) :
    old.ShowsStale t := by
  have hfinal := hp.not_accepts_final
  obtain ⟨hnoRst, -⟩ := hp
  cases h with
  | reset hr => simp [hnoRst] at hr
  | init ha => exact ⟨hs.cfg_eq, hs.result_eq, rfl⟩
  | finalInFrame ha | finalOutsideFrame ha => exact absurd ha hfinal
  | fill | idle | nop | byteInFrame | byteOutsideFrame => exact ⟨hs.cfg_eq, hs.result_eq, hs.invalid⟩

theorem run_showsStale {old s : State} {k : Nat} (hq : ∀ p ∈ s.host.take k, p.keepsResult) (hs : old.ShowsStale s) :
    ∃ t, run k s = .next t ∧ old.ShowsStale t := by
  induction k generalizing s with
  | zero => exact ⟨s, run_zero s, hs⟩
  | succ k ih =>
    obtain ⟨hp, htail⟩ := State.forall_take_succ Pins.keepsResult_idle hq
    obtain ⟨u, hu⟩ := step_answers s
    have he := Edge.of_step hu
    rw [run_succ hu]
    exact ih (by rwa [he.host_eq]) (he.showsStale hp hs)

/-- R36: the port shows RESULT, so an unchanged RESULT shows unchanged. -/
theorem State.ShowsStale.crcO_eq {old s : State} (h : old.ShowsStale s) : s.crcO.toNat = old.crcO.toNat := by
  rw [s.crcO_toNat, old.crcO_toNat, h.result_eq, h.cfg_eq]

/-- Settles O55: the accepted INIT clears RESULT_VALID and keeps RESULT, and every later edge keeps both. -/
theorem staleResultStaysUntilTheNextFinal : Obligations.StaleResultStaysUntilTheNextFinal := by
  intro k s ha hq
  have hinit : Edge s (s.setReg s.cfg.seed).openFrame.nextCycle := .init ha
  obtain ⟨-, htail⟩ := State.forall_take_succ (Q := Pins.keepsResult) Pins.keepsResult_idle hq
  have hfirst : s.ShowsStale (s.setReg s.cfg.seed).openFrame.nextCycle := ⟨rfl, rfl, rfl⟩
  obtain ⟨t, ht, hstale⟩ := run_showsStale (by rwa [hinit.host_eq]) hfirst
  exact ⟨t, (run_succ (step_eq_next_iff.mpr hinit) k).trans ht, hstale.crcO_eq, hstale.result_eq, hstale.invalid⟩

end Sys2Proof.Machine
end

section
/-! SUPPORT. Protocol errors (60_exceptions.md R150 to R156): recording one is a single update of ERR and ERR_CAUSE,
which changes nothing where ERR is already 1. -/

namespace Sys2Proof.Machine

/-- Settles O50: every command answers a next state, so every edge does, and so does a run of any length. -/
theorem nothingStopsTheMachine : Obligations.NothingStopsTheMachine := run_answers

/-- Settles O47: outside a frame both commands record a protocol error, whose update is the one stated. -/
theorem aProtocolErrorRecordsTheFirstCauseOnly : Obligations.AProtocolErrorRecordsTheFirstCauseOnly := fun _ hf =>
  ⟨exec_byte_outsideFrame hf, exec_final_outsideFrame hf⟩

/-- R151: the first cause is kept, so with ERR = 1 there is nothing left to record. -/
theorem State.raiseProtocolError_of_err {s : State} (he : s.err = true) (e : ProtocolError) :
    s.raiseProtocolError e = s := by
  rw [raiseProtocolError, if_pos he, ← he]

/-- R156: an edge without reset keeps a recorded error; only the two protocol errors are edges whose update names it. -/
theorem Edge.keeps_err {s t : State} (h : Edge s t) (hr : s.pins.rst = false) (he : s.err = true) :
    t.err = true ∧ t.errCause = s.errCause := by
  cases h with
  | reset hrst => simp [hr] at hrst
  | byteOutsideFrame | finalOutsideFrame => rw [State.raiseProtocolError_of_err he]; exact ⟨he, rfl⟩
  | fill | idle | nop | init | byteInFrame | finalInFrame => exact ⟨he, rfl⟩

/-- Settles O49: every edge without reset keeps the recorded error, and a reset edge is the one that writes it 0. -/
theorem errorsStickUntilReset : Obligations.ErrorsStickUntilReset := by
  refine ⟨fun k s he hn => ?sticks, fun s he hf => ?secondError, fun s hr => ?cleared⟩
  case sticks =>
    obtain ⟨t, ht⟩ := run_answers k s
    refine ⟨t, ht, run_keeps_of_noReset (P := fun u => u.err = true ∧ u.errCause = s.errCause)
      ?_ hn ⟨he, rfl⟩ ht⟩
    rintro u v hr ⟨hu, hcause⟩ huv
    obtain ⟨hv, hkept⟩ := (Edge.of_step huv).keeps_err hr hu
    exact ⟨hv, hkept.trans hcause⟩
  case secondError =>
    have hkept := State.raiseProtocolError_of_err he
    exact ⟨by rw [exec_final_outsideFrame hf, hkept], fun b => by rw [exec_byte_outsideFrame hf, hkept]⟩
  case cleared => exact ⟨_, step_of_rst hr, rfl, rfl⟩

end Sys2Proof.Machine
end

section
/-! SUPPORT. Reset and whole runs (70_reset_and_hazards.md R170 to R175, R186): what any number of reset edges leaves,
the READY state that reset and fill lead to from every power-up state, and the frame after it. -/

namespace Sys2Proof.Machine

/-! ### One edge -/

/-- Settles O51: each of the four cases is an equation of the step. -/
theorem anEdgeIsOneOfFourCases : Obligations.AnEdgeIsOneOfFourCases := by
  intro s
  cases hrst : s.pins.rst with
  | true => exact step_of_rst hrst
  | false =>
    cases hready : s.ready with
    | false => exact step_of_filling hrst hready
    | true =>
      cases hvalid : s.pins.cmdValid with
      | true => exact step_of_accepts (State.accepts_iff.mpr ⟨hrst, hready, hvalid, rfl⟩)
      | false => exact step_of_idle hrst hready hvalid

/-- Settles O52: rst masks `cmd_ready`, and the reset values are what the reset edge writes. -/
theorem aResetEdgeWritesTheResetValues : Obligations.AResetEdgeWritesTheResetValues :=
  ⟨fun s p hr => by simp [State.cmdReady, hr], fun _ hr => step_of_rst hr⟩

/-! ### Reset held over several edges -/

theorem step_of_reset_cons {s : State} {p : Pins} {rest : List Pins} (hs : s.host = p :: rest) (hr : p.rst = true) :
    step s = .next (s.resetEdge.withHost rest) := by
  have hpins : s.pins = p := by rw [State.pins, hs, List.headD_cons]
  have htail : s.host.tail = rest := by rw [hs, List.tail_cons]
  rw [step_of_rst (by rw [hpins, hr]), ← htail]
  rfl

/-- R173: one or more reset edges leave what a single one does: each finds the reset values and writes them again. -/
theorem run_resets {s : State} {p : Pins} {resets rest : List Pins} (hs : s.host = p :: resets ++ rest)
    (hr : ∀ q ∈ p :: resets, q.rst = true) :
    run (resets.length + 1) s = .next (s.resetEdge.withHost rest) := by
  induction resets generalizing s p with
  | nil => rw [List.length_nil, run_one, step_of_reset_cons hs (hr p List.mem_cons_self)]; rfl
  | cons q resets ih =>
    obtain ⟨hp, hresets⟩ := List.forall_mem_cons.mp hr
    rw [run_succ (step_of_reset_cons hs hp)]
    exact ih (s := s.resetEdge.withHost (q :: resets ++ rest)) rfl hresets

/-- Settles O53: the reset edges leave the reset values, and the edge after them fills the entry at FILL_IDX = 0. -/
theorem heldResetReappliesTheResetValues : Obligations.HeldResetReappliesTheResetValues := by
  intro k s hlen hr
  obtain ⟨p, resets, htake⟩ : ∃ p resets, s.host.take (k + 1) = p :: resets :=
    List.exists_cons_of_length_eq_add_one (List.length_take_of_le hlen)
  have hhost : s.host = p :: resets ++ s.host.drop (k + 1) := by rw [← htake, List.take_append_drop]
  have hcount : resets.length + 1 = k + 1 := by rw [← List.length_cons, ← htake, List.length_take_of_le hlen]
  have hrun := run_resets hhost (htake ▸ hr)
  rw [hcount] at hrun
  exact ⟨_, hrun, rfl, fun hnoRst => step_of_filling_eq hnoRst rfl⟩

/-! ### Reset, fill and frame -/

/-- R175: reset and fill lead from any state with a canonical TABLE to the READY state of its generics. -/
theorem run_resets_fill {s : State} {p : Pins} {resets fill rest : List Pins} (hw : s.table.wf = true)
    (hs : s.host = p :: resets ++ (fill ++ rest)) (hresets : ∀ q ∈ p :: resets, q.rst = true)
    (hlen : fill.length = 256) (hfill : ∀ q ∈ fill, q.rst = false) :
    run (resets.length + 1 + 256) s = .next ((State.resetOf s.cfg).afterFill.withHost rest) := by
  have hnoReset : (s.resetEdge.withHost (fill ++ rest)).noReset 256 := by
    intro q hq
    have htake : (fill ++ rest).take 256 = fill := List.take_left' hlen
    exact hfill q (htake ▸ hq)
  have hfilled : (s.resetEdge.withHost (fill ++ rest)).filledTo 256 =
      (State.resetOf s.cfg).afterFill.withHost rest := by
    have hdrop : (fill ++ rest).drop 256 = rest := List.drop_left' hlen
    rw [State.filledTo_256 (s := s.resetEdge.withHost (fill ++ rest)) hw]
    exact congrArg (State.resetOf s.cfg).afterFill.withHost hdrop
  rw [run_add (run_resets hs hresets), run_eq_filledTo rfl rfl hnoReset (Nat.le_refl 256), hfilled]

/-- R41: READY and RESULT_VALID alone read 000101. -/
theorem State.statusO_published {s : State} (hy : s.ready = true) (hf : s.inFrame = false) (hv : s.resultValid = true)
    (he : s.err = false) (hcause : s.errCause = 0b00#2) : s.statusO = 0b000101#6 := by
  rw [statusO, hy, hf, hv, he, hcause]
  rfl

/-- Settles O56: reset and fill lead to the READY state, which meets the invariant, and the frame's cycles publish
CRC_V there with no error recorded. -/
theorem aWholeRunObservesTheChecksum : Obligations.AWholeRunObservesTheChecksum := by
  intro s bytes resets fill cycles rest hw hs hne hresets hlen hfill hframe
  obtain ⟨p, resets, rfl⟩ := List.exists_cons_of_ne_nil hne
  have hhost : s.host = p :: resets ++ (fill ++ (cycles ++ rest)) := by simpa only [List.append_assoc] using hs
  have hready := run_resets_fill hw hhost hresets hlen hfill
  have hinv : ((State.resetOf s.cfg).afterFill.withHost (cycles ++ rest)).Inv := (readyState_inv s.cfg).withHost _
  obtain ⟨r, hrun⟩ := aFrameComputesTheChecksumOfItsStream _ bytes cycles rest hinv rfl rfl hframe
  exact ⟨_, (run_add hready cycles.length).trans hrun, rfl, rfl, State.crcO_toNat _, rfl,
    State.statusO_published rfl rfl rfl rfl rfl⟩

end Sys2Proof.Machine
end
